-- ==== Sys2Proof/Word.lean ====
section
/-! DEFINITION. The word types of the block: a buffer byte, a 16-bit (compressed) and a 32-bit (standard) instruction
word, a register index and a CSR address (10_state.md R26, R27; 30_encoding.md R63, R64). -/

namespace Sys2Proof

/-- One byte of the input buffer (20_memory.md R40). -/
abbrev Byte := BitVec 8

/-- A compressed instruction word (30_encoding.md R63). -/
abbrev Half := BitVec 16

/-- A standard instruction word, and the width of the `word` component of every record (10_state.md R26). -/
abbrev Word := BitVec 32

/-- A register index: exactly 5 bits, so always in range (10_state.md R28). -/
abbrev RegIndex := BitVec 5

/-- A CSR address: 12 bits, unsigned (10_state.md R29). -/
abbrev CsrAddr := BitVec 12

end Sys2Proof
end

