-- ==== Sys2Proof/Machine/Operands.lean ====
section
/-! DEFINITION. Bit fields, sign extension, and every operand form of the spec: register fields, the CSR address and
the immediates of the formats I, S, B, J, U and CI (00_scope.md R6–R9; 30_encoding.md R75–R82). -/

namespace Sys2Proof

/-- `mask(n) = 2^n - 1` (00_scope.md R7). -/
def mask (n : Nat) : Nat := 2 ^ n - 1

/-- `bits(word, hi, lo)`, also written `word[hi:lo]` (00_scope.md R6, R7). The precondition is a proof argument: a
call outside it cannot be written (U3). -/
def bits {n : Nat} (w : BitVec n) (hi lo : Nat) (_h : lo ≤ hi ∧ hi < n ∧ hi ≤ 31 := by decide) : Nat :=
  (w.toNat >>> lo) &&& mask (hi - lo + 1)

/-- `sign_extend(value, width)` (00_scope.md R8). -/
def signExtend (value width : Nat) : Int :=
  if value.testBit (width - 1) then (value : Int) - 2 ^ width else value

/-! ### Register and CSR operands (R81, R82) -/

/-- `rd` of a standard word. -/
def rdOf (w : Word) : RegIndex := BitVec.ofNat 5 (bits w 11 7)

/-- `rs1` of a standard word. -/
def rs1Of (w : Word) : RegIndex := BitVec.ofNat 5 (bits w 19 15)

/-- `rs2` of a standard word. -/
def rs2Of (w : Word) : RegIndex := BitVec.ofNat 5 (bits w 24 20)

/-- `rd` of a compressed word. -/
def rdOfC (w : Half) : RegIndex := BitVec.ofNat 5 (bits w 11 7)

/-- `rs` of a compressed word. -/
def rsOfC (w : Half) : RegIndex := BitVec.ofNat 5 (bits w 6 2)

/-- The CSR address of a `csrrs` word, unsigned (R81). -/
def csrOf (w : Word) : CsrAddr := BitVec.ofNat 12 (bits w 31 20)

/-! ### Immediates (R75–R80) -/

/-- I-immediate (R75). -/
def immI (w : Word) : Int := signExtend (bits w 31 20) 12

/-- S-immediate (R76): the halves are joined before sign extension. -/
def immS (w : Word) : Int := signExtend (bits w 11 7 ||| (bits w 31 25 <<< 5)) 12

/-- B-immediate (R77). -/
def immB (w : Word) : Int :=
  signExtend ((bits w 31 31 <<< 12) ||| (bits w 30 25 <<< 5) ||| (bits w 11 8 <<< 1) ||| (bits w 7 7 <<< 11)) 13

/-- J-immediate (R78). -/
def immJ (w : Word) : Int :=
  signExtend ((bits w 31 31 <<< 20) ||| (bits w 30 21 <<< 1) ||| (bits w 20 20 <<< 11) ||| (bits w 19 12 <<< 12)) 21

/-- U-immediate (R79): not shifted. -/
def immU (w : Word) : Int := signExtend (bits w 31 12) 20

/-- CI-immediate of `c.li` (R80): unsigned, not sign-extended. -/
def immCI (w : Half) : BitVec 6 := BitVec.ofNat 6 (bits w 6 2 + (bits w 12 12 <<< 5))

end Sys2Proof
end

