-- ==== Sys2Proof/Syntax.lean ====
section
/-! DEFINITION. The instruction syntax: the two supported lengths, the three length classes, the 13 recognized forms
(one constructor per row of spec/opcode_table.json), and the words an instruction is encoded in. -/

namespace Sys2Proof

/-- A supported instruction length (30_encoding.md R60): 2 bytes (compressed) or 4 bytes (standard). -/
inductive InsnLen where
  | two
  | four
  deriving DecidableEq, Repr

/-- The length in bytes. -/
def InsnLen.bytes : InsnLen → Nat
  | .two => 2
  | .four => 4

/-- The result of the length classifier (30_encoding.md R61). -/
inductive LengthClass where
  /-- Compressed, 2 bytes. -/
  | len2
  /-- Standard, 4 bytes. -/
  | len4
  /-- An encoding of 48 bits or more: unsupported. -/
  | bad
  deriving DecidableEq, Repr

/-- The decoded instruction, one constructor per recognized form, with the operands of 10_state.md R27 in R27's order.
The `Int` immediates are carried on a 32-bit port as two's complement (D2); their ranges are checked in WellFormed. -/
inductive Instr where
  /-- `c.addi`, R120. No operand fields (D3). -/
  | cAddi
  /-- `c.li`, R121. `imm` is unsigned, 0..63. -/
  | cLi (rd : RegIndex) (imm : BitVec 6)
  /-- `c.mv`, R122. -/
  | cMv (rd rs : RegIndex)
  /-- `addi`, R130. -/
  | addi (rd rs1 : RegIndex) (imm : Int)
  /-- `sw`, R131: data register `rs2`, base register `rs1`. -/
  | sw (rs2 rs1 : RegIndex) (imm : Int)
  /-- `lw`, R132. -/
  | lw (rd rs1 : RegIndex) (imm : Int)
  /-- `bne`, R140. -/
  | bne (rs1 rs2 : RegIndex) (imm : Int)
  /-- `blt`, R141. -/
  | blt (rs1 rs2 : RegIndex) (imm : Int)
  /-- `jal`, R142. -/
  | jal (rd : RegIndex) (imm : Int)
  /-- `lui`, R150: the 20-bit field sign-extended, not shifted. -/
  | lui (rd : RegIndex) (imm : Int)
  /-- `csrrs`, R160. -/
  | csrrs (rd : RegIndex) (csr : CsrAddr) (rs1 : RegIndex)
  /-- `wfi`, R161. -/
  | wfi
  /-- `ecall`, R162. -/
  | ecall
  deriving DecidableEq, Repr

/-- An encoded instruction: a 16-bit or a 32-bit word (00_scope.md R13, "Instruction word"). -/
inductive InsnWord where
  | half (w : Half)
  | word (w : Word)
  deriving DecidableEq, Repr

end Sys2Proof
end

