-- ==== Sys2Proof/Decode.lean ====
section
/-! DEFINITION. The length classifier, the match condition of each form, the two format routers, the decoder of a byte
sequence, and the encoder (30_encoding.md; 40_decode_step.md R101–R103, R112, R113; R120–R162). -/

namespace Sys2Proof

/-! ### The length classifier -/

/-- `Classify(b0)` (30_encoding.md R61). -/
def classify (b0 : Byte) : LengthClass :=
  if b0 &&& 0b11 ≠ 0b11 then .len2
  else if b0 &&& 0b11100 ≠ 0b11100 then .len4
  else .bad

/-! ### The compressed router -/

/-- The match condition of `c.addi` (R120). -/
abbrev MatchesCAddi (w : Half) : Prop := bits w 1 0 = 0b01 ∧ bits w 15 13 = 0b000

/-- The match condition of `c.li` (R121). -/
abbrev MatchesCLi (w : Half) : Prop := bits w 1 0 = 0b01 ∧ bits w 15 13 = 0b010 ∧ bits w 11 7 ≠ 0

/-- The match condition of `c.mv` (R122). -/
abbrev MatchesCMv (w : Half) : Prop :=
  bits w 1 0 = 0b10 ∧ bits w 15 13 = 0b100 ∧ bits w 6 2 ≠ 0 ∧ bits w 11 7 ≠ 0 ∧ bits w 12 12 = 0

/-- `DecodeC` (40_decode_step.md R102). At most one condition holds, so the order is immaterial (R85). -/
def decodeC (w : Half) : Option Instr :=
  if MatchesCAddi w then some .cAddi
  else if MatchesCLi w then some (.cLi (rdOfC w) (immCI w))
  else if MatchesCMv w then some (.cMv (rdOfC w) (rsOfC w))
  else none

/-! ### The standard router -/

/-- The match condition of `addi` (R130). -/
abbrev MatchesAddi (w : Word) : Prop := bits w 6 0 = 0b0010011 ∧ bits w 14 12 = 0b000

/-- The match condition of `sw` (R131). -/
abbrev MatchesSw (w : Word) : Prop := bits w 6 0 = 0b0100011 ∧ bits w 14 12 = 0b010

/-- The match condition of `lw` (R132). -/
abbrev MatchesLw (w : Word) : Prop := bits w 6 0 = 0b0000011 ∧ bits w 14 12 = 0b010

/-- The match condition of `bne` (R140). -/
abbrev MatchesBne (w : Word) : Prop := bits w 6 0 = 0b1100011 ∧ bits w 14 12 = 0b001

/-- The match condition of `blt` (R141). -/
abbrev MatchesBlt (w : Word) : Prop := bits w 6 0 = 0b1100011 ∧ bits w 14 12 = 0b100

/-- The match condition of `jal` (R142): funct3 is not examined. -/
abbrev MatchesJal (w : Word) : Prop := bits w 6 0 = 0b1101111

/-- The match condition of `lui` (R150): funct3 is not examined. -/
abbrev MatchesLui (w : Word) : Prop := bits w 6 0 = 0b0110111

/-- The match condition of `csrrs` (R160). -/
abbrev MatchesCsrrs (w : Word) : Prop := bits w 6 0 = 0b1110011 ∧ bits w 14 12 = 0b010

/-- The match condition of `wfi` (R161): the exact word. -/
abbrev MatchesWfi (w : Word) : Prop := w = 0x10500073#32

/-- The match condition of `ecall` (R162): the exact word. -/
abbrev MatchesEcall (w : Word) : Prop := w = 0x00000073#32

/-- `DecodeS` (40_decode_step.md R103). At most one condition holds, so the order is immaterial (R85). -/
def decodeS (w : Word) : Option Instr :=
  if MatchesAddi w then some (.addi (rdOf w) (rs1Of w) (immI w))
  else if MatchesSw w then some (.sw (rs2Of w) (rs1Of w) (immS w))
  else if MatchesLw w then some (.lw (rdOf w) (rs1Of w) (immI w))
  else if MatchesBne w then some (.bne (rs1Of w) (rs2Of w) (immB w))
  else if MatchesBlt w then some (.blt (rs1Of w) (rs2Of w) (immB w))
  else if MatchesJal w then some (.jal (rdOf w) (immJ w))
  else if MatchesLui w then some (.lui (rdOf w) (immU w))
  else if MatchesCsrrs w then some (.csrrs (rdOf w) (csrOf w) (rs1Of w))
  else if MatchesWfi w then some .wfi
  else if MatchesEcall w then some .ecall
  else none

/-- The router for a word of a classified length. A compressed word arrives zero-extended to 32 bits, as in the `word`
component of a record (10_state.md R26). -/
def routeWord (n : InsnLen) (w : Word) : Option Instr :=
  match n with
  | .two => decodeC (w.setWidth 16)
  | .four => decodeS w

/-! ### Decoding a byte sequence -/

/-- Little-endian assembly of bytes, lowest offset first (20_memory.md R42). -/
def leNat : List Byte → Nat
  | [] => 0
  | b :: bs => b.toNat + 256 * leNat bs

/-- What the bytes from the cursor on decode to. Every refusal has a name of its own. -/
inductive Decoded where
  /-- A recognized form. -/
  | insn (len : InsnLen) (word : Word) (x : Instr)
  /-- A word of a supported length that matches no form (R112, R113). -/
  | unknown (len : InsnLen) (word : Word)
  /-- An unsupported length (R89). -/
  | badLength (b0 : Byte)
  /-- Fewer bytes than the classified length (R101). -/
  | truncated (need : InsnLen) (remaining : Nat)
  /-- No byte at all: no step is enabled there (R106). -/
  | empty
  deriving DecidableEq, Repr

/-- Bounds check, then word assembly, then routing, for a classified length (40_decode_step.md R101). -/
def decodeSizedBytes (n : InsnLen) (bs : List Byte) : Decoded :=
  if bs.length < n.bytes then .truncated n bs.length
  else
    match routeWord n (BitVec.ofNat 32 (leNat (bs.take n.bytes))) with
    | some x => .insn n (BitVec.ofNat 32 (leNat (bs.take n.bytes))) x
    | none => .unknown n (BitVec.ofNat 32 (leNat (bs.take n.bytes)))

/-- The decoder on the bytes that remain from the cursor on: total (40_decode_step.md R101). -/
def decodeBytes : List Byte → Decoded
  | [] => .empty
  | b0 :: rest =>
    match classify b0 with
    | .bad => .badLength b0
    | .len2 => decodeSizedBytes .two (b0 :: rest)
    | .len4 => decodeSizedBytes .four (b0 :: rest)

/-- The `k` low bytes of a number, lowest first: how the hardware's words stand in the buffer (R42). -/
def leBytes : Nat → Nat → List Byte
  | 0, _ => []
  | k + 1, w => BitVec.ofNat 8 w :: leBytes k (w / 256)

/-- What the decoder reads from an instruction whose bits are `w`, numbered as spec/opcode_table.json numbers them: the
`nbits` low bits of `w` laid out little-endian over the longest instruction (4 bytes), the bits above `nbits` zero. -/
def decodeTableWord (nbits w : Nat) : Option Instr :=
  match decodeBytes (leBytes 4 (w % 2 ^ nbits)) with
  | .insn _ _ x => some x
  | .unknown _ _ => none
  | .badLength _ => none
  | .truncated _ _ => none
  | .empty => none

/-- The length of each form: the three compressed forms are 2 bytes, the others 4 (00_scope.md R2). -/
def Instr.length : Instr → InsnLen
  | .cAddi => .two
  | .cLi _ _ => .two
  | .cMv _ _ => .two
  | .addi _ _ _ => .four
  | .sw _ _ _ => .four
  | .lw _ _ _ => .four
  | .bne _ _ _ => .four
  | .blt _ _ _ => .four
  | .jal _ _ => .four
  | .lui _ _ => .four
  | .csrrs _ _ _ => .four
  | .wfi => .four
  | .ecall => .four

/-! ### The encoder, from the format tables of 30_encoding.md -/

/-- Format I (R67). -/
def encodeI (imm : BitVec 12) (rs1 : RegIndex) (funct3 : BitVec 3) (rd : RegIndex) (opcode : BitVec 7) : Word :=
  imm ++ rs1 ++ funct3 ++ rd ++ opcode

/-- Format S (R68). -/
def encodeS (imm : BitVec 12) (rs2 rs1 : RegIndex) (funct3 : BitVec 3) (opcode : BitVec 7) : Word :=
  imm.extractLsb' 5 7 ++ rs2 ++ rs1 ++ funct3 ++ imm.extractLsb' 0 5 ++ opcode

/-- Format B (R69). Bit 0 of the offset is not encoded. -/
def encodeB (imm : BitVec 13) (rs2 rs1 : RegIndex) (funct3 : BitVec 3) (opcode : BitVec 7) : Word :=
  imm.extractLsb' 12 1 ++ imm.extractLsb' 5 6 ++ rs2 ++ rs1 ++ funct3 ++ imm.extractLsb' 1 4 ++ imm.extractLsb' 11 1 ++ opcode

/-- Format U (R70). -/
def encodeU (imm : BitVec 20) (rd : RegIndex) (opcode : BitVec 7) : Word := imm ++ rd ++ opcode

/-- Format J (R71). Bit 0 of the offset is not encoded. -/
def encodeJ (imm : BitVec 21) (rd : RegIndex) (opcode : BitVec 7) : Word :=
  imm.extractLsb' 20 1 ++ imm.extractLsb' 1 10 ++ imm.extractLsb' 11 1 ++ imm.extractLsb' 12 8 ++ rd ++ opcode

/-- Compressed format CI (R72). -/
def encodeCI (funct3 : BitVec 3) (imm : BitVec 6) (rd : RegIndex) (op : BitVec 2) : Half :=
  funct3 ++ imm.extractLsb' 5 1 ++ rd ++ imm.extractLsb' 0 5 ++ op

/-- Compressed format CR (R73), with its bit 12. -/
def encodeCR (funct3 : BitVec 3) (bit12 : BitVec 1) (rd rs : RegIndex) (op : BitVec 2) : Half :=
  funct3 ++ bit12 ++ rd ++ rs ++ op

/-- The words of a well-formed instruction. `c.addi` carries no operand fields, so of its many words the one with
bits [12:2] zero is taken (log entry 12). -/
def encode : Instr → InsnWord
  | .cAddi => .half (encodeCI 0b000 0 0 0b01)
  | .cLi rd imm => .half (encodeCI 0b010 imm rd 0b01)
  | .cMv rd rs => .half (encodeCR 0b100 0 rd rs 0b10)
  | .addi rd rs1 imm => .word (encodeI (BitVec.ofInt 12 imm) rs1 0b000 rd 0b0010011)
  | .sw rs2 rs1 imm => .word (encodeS (BitVec.ofInt 12 imm) rs2 rs1 0b010 0b0100011)
  | .lw rd rs1 imm => .word (encodeI (BitVec.ofInt 12 imm) rs1 0b010 rd 0b0000011)
  | .bne rs1 rs2 imm => .word (encodeB (BitVec.ofInt 13 imm) rs2 rs1 0b001 0b1100011)
  | .blt rs1 rs2 imm => .word (encodeB (BitVec.ofInt 13 imm) rs2 rs1 0b100 0b1100011)
  | .jal rd imm => .word (encodeJ (BitVec.ofInt 21 imm) rd 0b1101111)
  | .lui rd imm => .word (encodeU (BitVec.ofInt 20 imm) rd 0b0110111)
  | .csrrs rd csr rs1 => .word (encodeI csr rs1 0b010 rd 0b1110011)
  | .wfi => .word 0x10500073#32
  | .ecall => .word 0x00000073#32

/-- The bytes of an encoded instruction as they stand in the buffer (R42). -/
def InsnWord.toBytes : InsnWord → List Byte
  | .half w => leBytes 2 w.toNat
  | .word w => leBytes 4 w.toNat

/-- The value of an encoded instruction as the record carries it: zero-extended to 32 bits (10_state.md R26). -/
def InsnWord.toWord : InsnWord → Word
  | .half w => w.setWidth 32
  | .word w => w

end Sys2Proof
end

