-- ==== Sys2Proof/Machine/State.lean ====
section
/-! DEFINITION. The state of the scan unit, the record stream's records, and the reasons a step can stop
(10_state.md R21–R27, R33). -/

namespace Sys2Proof.Machine

/-- The scan status `st` (10_state.md R21, R23). -/
inductive Status where
  /-- A step is enabled. -/
  | running
  /-- The terminal state `i >= len` was reached without a truncation error. Final. -/
  | done
  /-- A step found fewer bytes remaining than the classified length. Final. -/
  | truncated
  deriving DecidableEq, Repr

/-- A decoded record (10_state.md R26). `have` of the spec is called `remaining`. -/
inductive Record where
  /-- A recognized form: offset, length, word (zero-extended for 2 bytes), payload. -/
  | insn (off : Nat) (len : InsnLen) (word : Word) (insn : Instr)
  /-- A word of a supported length that matches no form; not an error (R86). -/
  | unknown (off : Nat) (len : InsnLen) (word : Word)
  /-- An unsupported length: the offset and the classified byte (R232). -/
  | badLength (off : Nat) (b0 : Byte)
  /-- A truncation: the offset, the classified length and the number of bytes remaining (R233). -/
  | truncated (off : Nat) (need : InsnLen) (remaining : Nat)
  deriving DecidableEq, Repr

/-- The input buffer as (offset, byte) cells: offsets strictly rising, and only bytes the host has written. -/
abbrev Memory := List Host.Cell

/-- What an offset that no cell lists reads as: no value (log entry 2). -/
abbrev Memory.unlisted : Option Byte := none

/-- Everything the spec gives the scan unit (R21, R25) and the launch parameters of the scan (R24). -/
structure State where
  /-- The input buffer's bytes (R24, R40). Never written by the block. -/
  buf : Memory
  /-- The buffer length `len` (R24, R41). Never written by the block. -/
  len : Nat
  /-- The scan cursor `i` (R21, R22). Its width CUR_W is an invariant (log entry 5). -/
  cursor : Nat
  /-- The scan status `st` (R21, R23). -/
  status : Status
  /-- The output record stream, in step order (R25). -/
  out : List Record
  deriving DecidableEq, Repr

/-- Why a step gives no next state. -/
inductive Fault where
  /-- A step or an instruction was asked for where none is enabled: the status is final, or the cursor is at or past
  `len` (R23, R106). The machine is stuck there. Raised by `step` and by every meaning. Safe (log entry 4). -/
  | noStepEnabled
  /-- A read at this offset met a byte below `len` that the host never wrote, against its duty of R262. Raised by the
  decode core and by every meaning. Safe (log entry 2). -/
  | byteNotLoaded (off : Nat)
  deriving DecidableEq, Repr

/-- Why an operation has no meaning in the model. -/
inductive Refusal where
  /-- An instruction without a meaning. Raised by no arm of `exec`. Safe. -/
  | notModelled (mnemonic : String)
  /-- The host writes the buffer while a scan is running, which it must not (R48, U8). Raised by `hostLoad`. Safe. -/
  | bufferWriteDuringScan
  /-- The host loads more than MAX_LEN bytes, which it must not (R41). Raised by `hostLoad`. Safe. -/
  | bufferTooLong
  deriving DecidableEq, Repr

/-- The machine right after reset with nothing loaded: the state of R33 for `len = 0`. The buffer and `len` before the
host's first load are a DESIGN CHOICE (log entry 1). -/
def State.reset : State where
  buf := []
  len := 0
  cursor := 0
  status := .done
  out := []

end Sys2Proof.Machine
end

