-- ==== Sys2Proof/Machine/Flags.lean ====
section
/-! DEFINITION. The block has no flags and no condition codes (10_state.md R30). The status is the only condition it
holds; this file says how it is computed. -/

namespace Sys2Proof.Machine

/-- The status a scan of `len` bytes starts with (R33): `Running` if `len > 0`, else `Done`. -/
def startStatus (len : Nat) : Status := if 0 < len then .running else .done

/-- The status after the cursor has become `i` (40_decode_step.md R104): `if i >= len then st <- Done`. -/
def statusAt (len i : Nat) (st : Status) : Status := if len ≤ i then .done else st

/-- A step is enabled: the status is `Running` (R23, R104) and the cursor is below `len` (R106). -/
abbrev State.Enabled (s : State) : Prop := s.status = .running ∧ s.cursor < s.len

end Sys2Proof.Machine
end

