-- ==== Sys2Proof/Machine/Ops.lean ====
section
/-! DEFINITION. The named operations: reading and loading the buffer, emitting a record, advancing the cursor, the two
error conditions, the effect every recognized form shares, and the host's interactions. -/

namespace Sys2Proof.Machine

/-! ### The buffer as memory -/

/-- The byte at an offset, or what an unlisted offset reads as. -/
def Memory.read : Memory → Nat → Option Byte
  | [], _ => Memory.unlisted
  | (k, b) :: m, a => if k = a then some b else Memory.read m a

/-- The host's write of one byte, keeping the offsets strictly rising. -/
def Memory.write : Memory → Nat → Byte → Memory
  | [], a, b => [(a, b)]
  | (k, c) :: m, a, b =>
    if a < k then (a, b) :: (k, c) :: m
    else if a = k then (a, b) :: m
    else (k, c) :: Memory.write m a b

/-- Every listed offset is at least `lo`, and they rise strictly. -/
def Memory.wfFrom : Nat → Memory → Bool
  | _, [] => true
  | lo, (k, _) :: m => decide (lo ≤ k) && Memory.wfFrom (k + 1) m

/-- The canonical form of a memory: offsets strictly rising. -/
def Memory.wf (m : Memory) : Bool := Memory.wfFrom 0 m

/-- The bytes written at consecutive offsets from `a` on, over what is there. -/
def Memory.writeBytes : Memory → Nat → List Byte → Memory
  | m, _, [] => m
  | m, a, b :: bs => Memory.writeBytes (Memory.write m a b) (a + 1) bs

/-- `buf[a]`: defined for offsets below `len` only (20_memory.md R40, R43). -/
def State.byteAt (s : State) (a : Nat) : Option Byte := if a < s.len then Memory.read s.buf a else none

/-- `MemRead(off, n)` (20_memory.md R42): the bytes assembled little-endian. None where `off + n <= len` does not hold
or a byte was never loaded. -/
def State.memRead (s : State) (off : Nat) : Nat → Option Nat
  | 0 => some 0
  | n + 1 =>
    match s.byteAt off, State.memRead s (off + 1) n with
    | some b, some v => some (b.toNat + 256 * v)
    | _, _ => none

/-- The number of bytes remaining, `avail = len - i` (40_decode_step.md R100). -/
def State.avail (s : State) : Nat := s.len - s.cursor

/-! ### Emitting and advancing -/

/-- `emit r` (00_scope.md R11): append to the record stream. -/
def emit (r : Record) (s : State) : State := { s with out := s.out ++ [r] }

/-- `i <- i + n; if i >= len then st <- Done` (40_decode_step.md R104). The only write to the cursor (R11). -/
def advance (n : Nat) (s : State) : State :=
  { s with cursor := s.cursor + n, status := statusAt s.len (s.cursor + n) s.status }

/-- A non-final step's effect: emit the record, then advance (R104). -/
def commit (r : Record) (n : Nat) (s : State) : State := advance n (emit r s)

/-! ### The error conditions (60_exceptions.md). The block has no trap entry and no trap return (R238, R239): the
condition's record is all that is saved, no mode changes, and nothing is vectored or restored. -/

/-- `raise Truncated` (00_scope.md R11; R233): the record, the final status, the cursor where it was. -/
def raiseTruncated (need : InsnLen) (s : State) : State :=
  { emit (.truncated s.cursor need s.avail) s with status := .truncated }

/-- The unsupported-length condition (R232): the record, and the fixed 2-byte skip. -/
def takeBadLength (b0 : Byte) (s : State) : State := commit (.badLength s.cursor b0) 2 s

/-! ### The effect of a recognized form -/

/-- What every recognized form of length `n` does (R104, R105, R236; no other effect: R28, R29, R143, R241). The bounds
check comes before anything is read (R101); the record carries the raw word at the cursor (R26). -/
def retire (n : InsnLen) (x : Instr) (s : State) : Host.Outcome State Fault Refusal :=
  if s.Enabled then
    if s.avail < n.bytes then .next (raiseTruncated n s)
    else
      match s.memRead s.cursor n.bytes with
      | some w => .next (commit (.insn s.cursor n (BitVec.ofNat 32 w) x) n.bytes s)
      | none => .fault (.byteNotLoaded s.cursor)
  else .fault .noStepEnabled

/-! ### The host's interactions (10_state.md R35) -/

/-- `load`: the host writes the whole buffer and sets `len`; the unit does nothing. Not while a scan is running (R48),
and at most MAX_LEN bytes (R41). -/
def hostLoad (maxLen : Nat) (bytes : List Byte) (s : State) : Host.Outcome State Fault Refusal :=
  if s.status = .running then .refused .bufferWriteDuringScan
  else if maxLen < bytes.length then .refused .bufferTooLong
  else .next { s with buf := Memory.writeBytes [] 0 bytes, len := bytes.length }

/-- `start` (reset), at any time: the state of R33 over the buffer as it is, whatever the state was (R260). The records
already emitted are the host's; the unit's stream starts empty. -/
def hostStart (s : State) : State := { s with cursor := 0, status := startStatus s.len, out := [] }

/-- `consume`: the host reads the records in stream order; nothing is lost and nothing changes. -/
def hostRecords (s : State) : List Record := s.out

/-- The state in which a scan of these bytes starts: loaded, then started (R262). -/
def launch (bytes : List Byte) : State :=
  hostStart { State.reset with buf := Memory.writeBytes [] 0 bytes, len := bytes.length }

/-- The instruction with these bits stored little-endian at the cursor, over the longest instruction, with `len` and
the status such that the next step fetches it (log entry 3). -/
def placeAtCursor (s : State) (nbits w : Nat) : State :=
  { s with
    buf := Memory.writeBytes s.buf s.cursor (leBytes 4 (w % 2 ^ nbits))
    len := max s.len (s.cursor + 4)
    status := .running }

end Sys2Proof.Machine
end

