-- ==== Sys2Proof/Machine/DecodeCore.lean ====
section
/-! DEFINITION. The decode core: classification, bounds check, routing, in that order (40_decode_step.md R100, R101;
60_exceptions.md R236), and what a scan step does with its record (R104). -/

namespace Sys2Proof.Machine

/-- The part of `Decode(i, avail)` after a supported length was classified: the bounds check, then the word, then the
router (R101). -/
def decodeSized (s : State) (n : InsnLen) (i avail : Nat) : Except Fault (Record × Nat) :=
  if avail < n.bytes then .ok (.truncated i n avail, 0)
  else
    match s.memRead i n.bytes with
    | none => .error (.byteNotLoaded i)
    | some w =>
      match routeWord n (BitVec.ofNat 32 w) with
      | some x => .ok (.insn i n (BitVec.ofNat 32 w) x, n.bytes)
      | none => .ok (.unknown i n (BitVec.ofNat 32 w), n.bytes)

/-- `Decode(i, avail) : (Record, adv)` (R100, R101). It reads the buffer through `memRead` only. -/
def decodeCore (s : State) (i avail : Nat) : Except Fault (Record × Nat) :=
  match s.memRead i 1 with
  | none => .error (.byteNotLoaded i)
  | some b =>
    match classify (BitVec.ofNat 8 b) with
    | .bad => .ok (.badLength i (BitVec.ofNat 8 b), 2)
    | .len2 => decodeSized s .two i avail
    | .len4 => decodeSized s .four i avail

/-- What the coming step of a state has to do. -/
inductive Fetched where
  /-- No next state. -/
  | stop (f : Fault)
  /-- A recognized form, to be executed. -/
  | run (x : Instr)
  /-- Any other record: the state after it. -/
  | settle (s : State)
  deriving DecidableEq, Repr

/-- The decode core's answer at the cursor (R104), with the effect of each record that is not a recognized form. -/
def fetch (s : State) : Fetched :=
  if s.Enabled then
    match decodeCore s s.cursor s.avail with
    | .error f => .stop f
    | .ok (.insn _ _ _ x, _) => .run x
    | .ok (.unknown off n w, adv) => .settle (commit (.unknown off n w) adv s)
    | .ok (.badLength _ b0, _) => .settle (takeBadLength b0 s)
    | .ok (.truncated _ need _, _) => .settle (raiseTruncated need s)
  else .stop .noStepEnabled

/-- The step of R104 word for word: decode, emit, then either the final status or the advance. `step` of
Machine/Step.lean goes through `exec`; that the two agree is a statement of its own. -/
def scanStep (s : State) : Host.Outcome State Fault Refusal :=
  if s.Enabled then
    match decodeCore s s.cursor (s.len - s.cursor) with
    | .error f => .fault f
    | .ok (.truncated off need remaining, _) => .next { emit (.truncated off need remaining) s with status := .truncated }
    | .ok (r, adv) => .next (advance adv (emit r s))
  else .fault .noStepEnabled

end Sys2Proof.Machine
end

