-- ==== Sys2Proof/Machine/Compressed.lean ====
section
/-! DEFINITION. The compressed forms `c.addi`, `c.li`, `c.mv` (41_compressed.md R120–R122): each emits its record and
advances the cursor by 2. Nothing is executed. -/

namespace Sys2Proof.Machine

/-- `c.addi` (R120): a record without operand fields. -/
def execCAddi (s : State) : Host.Outcome State Fault Refusal :=
  retire .two .cAddi s

/-- `c.li` (R121): the immediate is unsigned. -/
def execCLi (rd : RegIndex) (imm : BitVec 6) (s : State) : Host.Outcome State Fault Refusal :=
  retire .two (.cLi rd imm) s

/-- `c.mv` (R122). -/
def execCMv (rd rs : RegIndex) (s : State) : Host.Outcome State Fault Refusal :=
  retire .two (.cMv rd rs) s

end Sys2Proof.Machine
end

