-- ==== Sys2Proof/Machine/ControlTransfer.lean ====
section
/-! DEFINITION. The branch and jump forms `bne`, `blt`, `jal` (43_control_transfer.md R140–R143): each emits its record, with the
encoded offset, and advances the cursor by 4. The scan is not redirected. -/

namespace Sys2Proof.Machine

/-- `bne` (R140, R143). -/
def execBne (rs1 rs2 : RegIndex) (imm : Int) (s : State) : Host.Outcome State Fault Refusal :=
  retire .four (.bne rs1 rs2 imm) s

/-- `blt` (R141, R143). -/
def execBlt (rs1 rs2 : RegIndex) (imm : Int) (s : State) : Host.Outcome State Fault Refusal :=
  retire .four (.blt rs1 rs2 imm) s

/-- `jal` (R142, R143): no link register is written. -/
def execJal (rd : RegIndex) (imm : Int) (s : State) : Host.Outcome State Fault Refusal :=
  retire .four (.jal rd imm) s

end Sys2Proof.Machine
end

