-- ==== Sys2Proof/Machine/IntegerMemory.lean ====
section
/-! DEFINITION. The integer-immediate and load/store forms `addi`, `sw`, `lw` (42_integer_memory.md R130–R132): each emits its
record and advances the cursor by 4. No sum is computed and no memory is accessed. -/

namespace Sys2Proof.Machine

/-- `addi` (R130). -/
def execAddi (rd rs1 : RegIndex) (imm : Int) (s : State) : Host.Outcome State Fault Refusal :=
  retire .four (.addi rd rs1 imm) s

/-- `sw` (R131): nothing is stored. -/
def execSw (rs2 rs1 : RegIndex) (imm : Int) (s : State) : Host.Outcome State Fault Refusal :=
  retire .four (.sw rs2 rs1 imm) s

/-- `lw` (R132): nothing is loaded. -/
def execLw (rd rs1 : RegIndex) (imm : Int) (s : State) : Host.Outcome State Fault Refusal :=
  retire .four (.lw rd rs1 imm) s

end Sys2Proof.Machine
end

