-- ==== Sys2Proof/Machine/System.lean ====
section
/-! DEFINITION. The system forms `csrrs`, `wfi`, `ecall` (45_system.md R160–R162): each emits its record and advances the cursor
by 4. No CSR is read or written, nothing waits, no trap is raised, no privilege is checked (R240, R241). -/

namespace Sys2Proof.Machine

/-- `csrrs` (R160): every address is accepted (R235). -/
def execCsrrs (rd : RegIndex) (csr : CsrAddr) (rs1 : RegIndex) (s : State) : Host.Outcome State Fault Refusal :=
  retire .four (.csrrs rd csr rs1) s

/-- `wfi` (R161): the scan does not wait. -/
def execWfi (s : State) : Host.Outcome State Fault Refusal :=
  retire .four .wfi s

/-- `ecall` (R162): no environment call is raised. -/
def execEcall (s : State) : Host.Outcome State Fault Refusal :=
  retire .four .ecall s

end Sys2Proof.Machine
end

