-- ==== Sys2Proof/Machine/UpperImmediate.lean ====
section
/-! DEFINITION. The upper-immediate form `lui` (44_upper_immediate.md R150): it emits its record and advances the cursor by 4. -/

namespace Sys2Proof.Machine

/-- `lui` (R150). -/
def execLui (rd : RegIndex) (imm : Int) (s : State) : Host.Outcome State Fault Refusal :=
  retire .four (.lui rd imm) s

end Sys2Proof.Machine
end

