-- ==== Sys2Proof/Machine/Step.lean ====
section
/-! DEFINITION. One step of the scan unit (40_decode_step.md R104), and the state in which the next step fetches a given
instruction. -/

namespace Sys2Proof.Machine

/-- One step: decode at the cursor, then run the recognized form or settle the other record (R104). -/
def step (s : State) : Host.Outcome State Fault Refusal :=
  match fetch s with
  | .stop f => .fault f
  | .run x => exec x s
  | .settle t => .next t

/-- `s` with the instruction of bits `w` placed where the next step fetches (log entry 3). -/
def State.withFetchWord (s : State) (nbits w : Nat) : State := placeAtCursor s nbits w

end Sys2Proof.Machine
end

