-- ==== Sys2Proof/Config.lean ====
section
/-! DEFINITION. What an implementation fixes (00_scope.md R5): MAX_LEN, IMM_W and CUR_W, and the renderer's OPEN
parameters, which are opaque constants: no proof can see what they are. -/

namespace Sys2Proof.Config

/-- MAX_LEN in the source (00_scope.md R5, D14). Every definition and statement that needs MAX_LEN takes it as an
argument; this is the value the source gives it. -/
def sourceMaxLen : Nat := 1024

/-- IMM_W, the width of the immediate port (00_scope.md R5, D2). -/
abbrev immW : Nat := 32

/-- The least CUR_W for a given MAX_LEN: ceil(log2(MAX_LEN + 2)) (00_scope.md R5, D15). For `n ≥ 2` the ceiling of
log2 n is `Nat.log2 (n - 1) + 1`. -/
def cursorWidth (maxLen : Nat) : Nat := Nat.log2 (maxLen + 1) + 1

/-- `CsrName`, the partial map from CSR address to name (48_renderer.md R182). OPEN: the source's table is not known
(N1). A free value (log entry 10). -/
opaque csrName : CsrAddr → Option String

/-- `CAddiOperandText` (48_renderer.md R192). OPEN (D3). A free value (log entry 10). -/
opaque cAddiOperandText : Half → String

/-- `TruncatedText(off, need, have)` (48_renderer.md R195). OPEN (D7). A free value (log entry 10). -/
opaque truncatedText : (off need remaining : Nat) → String

/-- What `BadLengthText(off, b0)` says before the offending byte (48_renderer.md R194). A free value (log entries 10, 11). -/
opaque badLengthHead : (off : Nat) → (b0 : Byte) → String

/-- What `BadLengthText(off, b0)` says after the offending byte. A free value (log entries 10, 11). -/
opaque badLengthTail : (off : Nat) → (b0 : Byte) → String

/-- Whether `BadLengthText` writes the byte's hexadecimal digits in capitals: the source gives no case (N4). A free
value (log entries 10, 11). -/
opaque badLengthCapitals : (off : Nat) → (b0 : Byte) → Bool

end Sys2Proof.Config
end

