-- ==== Sys2Proof/Machine/Ports.lean ====
section
/-! DEFINITION. The flat port encoding of the decode core (10_state.md R36–R39). The ports are combinational outputs,
not state. A port that no rule lists for the current kind and tag carries any value: it comes from an argument that
nothing constrains (log entry 8). -/

namespace Sys2Proof.Machine

/-- The output ports with their widths (R36). `have` of the spec is called `remaining`. -/
structure Ports where
  kind : BitVec 2
  len : BitVec 3
  adv : BitVec 3
  word : Word
  b0 : Byte
  remaining : BitVec 3
  tag : BitVec 4
  rd : RegIndex
  rs1 : RegIndex
  rs2 : RegIndex
  imm : BitVec Config.immW
  csr : CsrAddr
  deriving DecidableEq, Repr

/-- The `kind` code of a record (R37). -/
def kindCode : Record → BitVec 2
  | .insn _ _ _ _ => 0
  | .unknown _ _ _ => 1
  | .badLength _ _ => 2
  | .truncated _ _ _ => 3

/-- The `tag` code of a recognized form (R38). -/
def tagCode : Instr → BitVec 4
  | .cAddi => 0
  | .cLi _ _ => 1
  | .cMv _ _ => 2
  | .addi _ _ _ => 3
  | .sw _ _ _ => 4
  | .lw _ _ _ => 5
  | .bne _ _ _ => 6
  | .blt _ _ _ => 7
  | .jal _ _ => 8
  | .lui _ _ => 9
  | .csrrs _ _ _ => 10
  | .wfi => 11
  | .ecall => 12

/-- A signed immediate on the IMM_W-bit port: two's complement (00_scope.md R8, D2). -/
def immPort (imm : Int) : BitVec Config.immW := BitVec.ofInt Config.immW imm

/-- The operand ports each tag drives (R38), over ports that carry any value. `c.mv` drives its `rs` on `rs2`. -/
def driveOperands (x : Instr) (p : Ports) : Ports :=
  match x with
  | .cAddi => p
  | .cLi rd imm => { p with rd := rd, imm := imm.setWidth Config.immW }
  | .cMv rd rs => { p with rd := rd, rs2 := rs }
  | .addi rd rs1 imm => { p with rd := rd, rs1 := rs1, imm := immPort imm }
  | .sw rs2 rs1 imm => { p with rs1 := rs1, rs2 := rs2, imm := immPort imm }
  | .lw rd rs1 imm => { p with rd := rd, rs1 := rs1, imm := immPort imm }
  | .bne rs1 rs2 imm => { p with rs1 := rs1, rs2 := rs2, imm := immPort imm }
  | .blt rs1 rs2 imm => { p with rs1 := rs1, rs2 := rs2, imm := immPort imm }
  | .jal rd imm => { p with rd := rd, imm := immPort imm }
  | .lui rd imm => { p with rd := rd, imm := immPort imm }
  | .csrrs rd csr rs1 => { p with rd := rd, rs1 := rs1, csr := csr }
  | .wfi => p
  | .ecall => p

/-- A length on a 3-bit port. -/
def lenPort (n : InsnLen) : BitVec 3 := BitVec.ofNat 3 n.bytes

/-- The ports for a word of a classified length (R36), from the low bytes of the window. -/
def sizedPorts (n : InsnLen) (win : Word) (avail : BitVec 3) (any : Ports) : Ports :=
  if avail.toNat < n.bytes then { any with kind := 3, len := lenPort n, adv := 0, remaining := avail }
  else
    match routeWord n (BitVec.ofNat 32 (win.toNat % 2 ^ (8 * n.bytes))) with
    | some x =>
      driveOperands x
        { any with
          kind := 0
          len := lenPort n
          adv := lenPort n
          word := BitVec.ofNat 32 (win.toNat % 2 ^ (8 * n.bytes))
          tag := tagCode x }
    | none =>
      { any with
        kind := 1
        len := lenPort n
        adv := lenPort n
        word := BitVec.ofNat 32 (win.toNat % 2 ^ (8 * n.bytes)) }

/-- The decode core on its ports (R36): `win` and `avail` in, the rest out. `any` gives the value of every port that is
not driven (R39). Outside `avail` in [1, 4] no rule gives the outputs a meaning, and none is driven (log entry 9). -/
def corePorts (win : Word) (avail : BitVec 3) (any : Ports) : Ports :=
  if 1 ≤ avail.toNat ∧ avail.toNat ≤ 4 then
    match classify (win.setWidth 8) with
    | .bad => { any with kind := 2, adv := 2, b0 := win.setWidth 8 }
    | .len2 => sizedPorts .two win avail any
    | .len4 => sizedPorts .four win avail any
  else any

/-- `avail` on its port: `min(len - i, 4)` (R36). -/
def State.availPort (s : State) : BitVec 3 := BitVec.ofNat 3 (min s.avail 4)

/-- Byte `k` of the window: `buf[i + k]` for `k < avail`, a don't-care byte otherwise (R36). DESIGN CHOICE, safe: a byte
below `len` that the host never wrote (R262 broken) is a don't-care byte here too, where the spec gives no value and `step`
faults (log entry 18). -/
def State.windowByte (s : State) (dontCare : Word) (k : Nat) : Byte :=
  (s.byteAt (s.cursor + k)).getD (dontCare.extractLsb' (8 * k) 8)

/-- `win` (R36): byte `k` at bits [8k+7:8k]. -/
def State.window (s : State) (dontCare : Word) : Word :=
  s.windowByte dontCare 3 ++ s.windowByte dontCare 2 ++ s.windowByte dontCare 1 ++ s.windowByte dontCare 0

/-- The form that the operand ports carry, for a tag that is driven (R38). Codes 13–15 are never driven. -/
def insnOfPorts (p : Ports) : Option Instr :=
  match p.tag.toNat with
  | 0 => some .cAddi
  | 1 => some (.cLi p.rd (p.imm.setWidth 6))
  | 2 => some (.cMv p.rd p.rs2)
  | 3 => some (.addi p.rd p.rs1 p.imm.toInt)
  | 4 => some (.sw p.rs2 p.rs1 p.imm.toInt)
  | 5 => some (.lw p.rd p.rs1 p.imm.toInt)
  | 6 => some (.bne p.rs1 p.rs2 p.imm.toInt)
  | 7 => some (.blt p.rs1 p.rs2 p.imm.toInt)
  | 8 => some (.jal p.rd p.imm.toInt)
  | 9 => some (.lui p.rd p.imm.toInt)
  | 10 => some (.csrrs p.rd p.csr p.rs1)
  | 11 => some .wfi
  | 12 => some .ecall
  | _ => none

/-- The length that a 3-bit port carries. -/
def lenOfPort (v : BitVec 3) : Option InsnLen :=
  if v = 2 then some .two else if v = 4 then some .four else none

/-- The record and the advance that the ports carry for a step at offset `off` (R36, R37): the reading of a consumer
that reads only the ports its kind and tag list (R39). -/
def recordOfPorts (off : Nat) (p : Ports) : Option (Record × Nat) :=
  match p.kind.toNat with
  | 0 =>
    match lenOfPort p.len, insnOfPorts p with
    | some n, some x => some (.insn off n p.word x, p.adv.toNat)
    | _, _ => none
  | 1 =>
    match lenOfPort p.len with
    | some n => some (.unknown off n p.word, p.adv.toNat)
    | none => none
  | 2 => some (.badLength off p.b0, p.adv.toNat)
  | _ =>
    match lenOfPort p.len with
    | some n => some (.truncated off n p.remaining.toNat, p.adv.toNat)
    | none => none

end Sys2Proof.Machine
end

