-- ==== Sys2Proof/Machine/Render.lean ====
section
/-! DEFINITION. The reference renderer (48_renderer.md R180–R197): the text of one record and of a whole scan. It is
software outside the hardware block (R180), and no step uses it. -/

namespace Sys2Proof.Machine

/-! ### Lookup tables -/

/-- The register names in index order (R181). The order is the spec's own choice D17. -/
def regNames : List String :=
  ["zero", "ra", "sp", "gp", "tp", "t0", "t1", "t2", "s0", "s1", "a0", "a1", "a2", "a3", "a4", "a5"] ++
  ["a6", "a7", "s2", "s3", "s4", "s5", "s6", "s7", "s8", "s9", "s10", "s11", "t3", "t4", "t5", "t6"]

/-- `Reg(x)` (R181): the table has 32 entries, so the fallback is never reached. -/
def regText (r : RegIndex) : String := regNames.getD r.toNat ""

/-- `CsrText(a)` (R182): total, "(unknown)" outside the table. -/
def csrText (a : CsrAddr) : String := (Config.csrName a).getD "(unknown)"

/-! ### Number and dump formats -/

/-- One hexadecimal digit, in small letters (R185) or in capitals. -/
def hexDigit (capitals : Bool) (v : Nat) : Char :=
  if v < 10 then Char.ofNat (48 + v) else if capitals then Char.ofNat (55 + v) else Char.ofNat (87 + v)

/-- The low `k` hexadecimal digits of `v`, most significant first, zero-padded. -/
def hexDigits (capitals : Bool) : Nat → Nat → List Char
  | 0, _ => []
  | k + 1, v => hexDigits capitals k (v / 16) ++ [hexDigit capitals (v % 16)]

/-- Exactly `k` lowercase hexadecimal digits (R184, R185). -/
def hexText (k v : Nat) : String := String.ofList (hexDigits false k v)

/-- How many hexadecimal digits a 32-bit number has without leading zeros; 1 for zero. -/
def hexWidth (v : Nat) : Nat := Nat.log2 v / 4 + 1

/-- `dec(v)` (R186): signed decimal. -/
def dec (v : Int) : String := if v < 0 then "-" ++ Nat.repr v.natAbs else Nat.repr v.natAbs

/-- `hexu(v)` (R188): "0x" and the lowercase digits of `v mod 2^32`, unpadded; zero is "0x0". -/
def hexu (v : Int) : String := "0x" ++ hexText (hexWidth (v % 2 ^ 32).toNat) (v % 2 ^ 32).toNat

/-- `Dump(r)` (R184): four spaces and 4 digits, or 8 digits. -/
def dumpText (n : InsnLen) (w : Word) : String :=
  match n with
  | .two => "    " ++ hexText 4 w.toNat
  | .four => hexText 8 w.toNat

/-! ### Text per record -/

/-- `Text(insn)` (R189–R192). `c.addi` needs the word for its OPEN operand text. -/
def insnText (w : Word) : Instr → String
  | .cAddi => "c.addi" ++ Config.cAddiOperandText (w.setWidth 16)
  | .cLi rd imm => "c.li " ++ regText rd ++ ", " ++ dec (imm.toNat : Int)
  | .cMv rd rs => "c.mv " ++ regText rd ++ ", " ++ regText rs
  | .addi rd rs1 imm => "addi " ++ regText rd ++ ", " ++ regText rs1 ++ ", " ++ dec imm
  | .sw rs2 rs1 imm => "sw " ++ regText rs2 ++ ", " ++ dec imm ++ "(" ++ regText rs1 ++ ")"
  | .lw rd rs1 imm => "lw " ++ regText rd ++ " " ++ dec imm ++ "(" ++ regText rs1 ++ ")"
  | .bne rs1 rs2 imm => "bne " ++ regText rs1 ++ ", " ++ regText rs2 ++ ", " ++ dec imm
  | .blt rs1 rs2 imm => "blt " ++ regText rs1 ++ ", " ++ regText rs2 ++ ", " ++ dec imm
  | .jal rd imm => "jal " ++ regText rd ++ ", " ++ dec imm
  | .lui rd imm => "lui " ++ regText rd ++ ", " ++ hexu imm
  | .csrrs rd csr rs1 => "csrrs " ++ regText rd ++ ", " ++ csrText csr ++ ", " ++ regText rs1
  | .wfi => "wfi"
  | .ecall => "ecall"

/-- `BadLengthText(off, b0)` (R194): open but for the byte in hexadecimal, which it contains (log entry 11). -/
def badLengthText (off : Nat) (b0 : Byte) : String :=
  Config.badLengthHead off b0 ++ String.ofList (hexDigits (Config.badLengthCapitals off b0) 2 b0.toNat) ++
    Config.badLengthTail off b0

/-- `Render(r) = (out, diag)` (R180, R183, R193–R195). -/
def render : Record → String × String
  | .insn _ n w x => (dumpText n w ++ "  " ++ insnText w x ++ "\n", "")
  | .unknown _ n w => (dumpText n w ++ "\n", "")
  | .badLength off b0 => ("", badLengthText off b0)
  | .truncated off need remaining => ("", Config.truncatedText off need.bytes remaining)

/-- The text of a scan on the output and the diagnostic stream (R197). -/
def renderScan (rs : List Record) : String × String :=
  (String.join (rs.map fun r => (render r).1), String.join (rs.map fun r => (render r).2))

end Sys2Proof.Machine
end

