-- ==== Sys2Proof/Machine/Scan.lean ====
section
/-! DEFINITION. The whole scan of a buffer: the step iterated from the start until the status is final
(40_decode_step.md R109, R110). -/

namespace Sys2Proof.Machine

/-- The step bound of a scan: ceil(len / 2) (R110). -/
def stepBound (len : Nat) : Nat := (len + 1) / 2

/-- `while st = Running: Step`, for at most the given number of steps (R109). -/
def runScan : Nat → State → Host.Outcome State Fault Refusal
  | 0, s => .next s
  | k + 1, s =>
    if s.status = .running then
      match step s with
      | .next t => runScan k t
      | .fault f => .fault f
      | .refused r => .refused r
    else .next s

/-- `Scan(buf, len)` (R109): from the loaded and started buffer, within the bound of R110. The final state holds the
records, the final cursor and the final status. -/
def scan (bytes : List Byte) : Host.Outcome State Fault Refusal :=
  runScan (stepBound bytes.length) (launch bytes)

end Sys2Proof.Machine
end

