-- ==== Sys2Proof/WellFormed.lean ====
section
/-! DEFINITION. Which instructions a word can encode: the ranges of 10_state.md R27 and the conditions of
41_compressed.md R121 and R122. -/

namespace Sys2Proof

/-- A 12-bit signed immediate (30_encoding.md R75, R76). -/
abbrev ImmOk12 (imm : Int) : Prop := -2048 ≤ imm ∧ imm ≤ 2047

/-- A branch offset: even, 13 bits signed (30_encoding.md R77). -/
abbrev ImmOkBranch (imm : Int) : Prop := -4096 ≤ imm ∧ imm ≤ 4094 ∧ imm % 2 = 0

/-- A jump offset: even, 21 bits signed (30_encoding.md R78). -/
abbrev ImmOkJump (imm : Int) : Prop := -1048576 ≤ imm ∧ imm ≤ 1048574 ∧ imm % 2 = 0

/-- The `lui` immediate: 20 bits signed (30_encoding.md R79). -/
abbrev ImmOkUpper (imm : Int) : Prop := -524288 ≤ imm ∧ imm ≤ 524287

/-- The instruction is one that some word encodes. -/
def Instr.wellFormed : Instr → Bool
  | .cAddi => true
  | .cLi rd _ => decide (rd ≠ 0)
  | .cMv rd rs => decide (rd ≠ 0 ∧ rs ≠ 0)
  | .addi _ _ imm => decide (ImmOk12 imm)
  | .sw _ _ imm => decide (ImmOk12 imm)
  | .lw _ _ imm => decide (ImmOk12 imm)
  | .bne _ _ imm => decide (ImmOkBranch imm)
  | .blt _ _ imm => decide (ImmOkBranch imm)
  | .jal _ imm => decide (ImmOkJump imm)
  | .lui _ imm => decide (ImmOkUpper imm)
  | .csrrs _ _ _ => true
  | .wfi => true
  | .ecall => true

end Sys2Proof
end

