-- ==== Sys2Proof/Safety.lean ====
section
/-! DEFINITION. The terms claims use: a loaded buffer, a final state, and the invariant of a scan (10_state.md R22, R23,
R25, R26; 70_reset_and_hazards.md R262). -/

namespace Sys2Proof.Machine

/-- The host has done its duty of R262: every byte below `len` was written. -/
abbrev State.Loaded (s : State) : Prop := ∀ a < s.len, (Memory.read s.buf a).isSome = true

/-- The scan has ended (R35): the status is not `Running`. -/
abbrev State.Final (s : State) : Prop := s.status ≠ .running

/-- The offset of a record (R26). -/
def Record.off : Record → Nat
  | .insn off _ _ _ => off
  | .unknown off _ _ => off
  | .badLength off _ => off
  | .truncated off _ _ => off

/-- The cursor advance that follows a record (R105). -/
def Record.advance : Record → Nat
  | .insn _ n _ _ => n.bytes
  | .unknown _ n _ => n.bytes
  | .badLength _ _ => 2
  | .truncated _ _ _ => 0

/-- The record is a truncation. -/
def Record.isTruncated : Record → Bool
  | .insn _ _ _ _ => false
  | .unknown _ _ _ => false
  | .badLength _ _ => false
  | .truncated _ _ _ => true

/-- The component ranges of R26: a recognized form of its own length, and well-formed; a 2-byte word zero-extended; an
unsupported first byte; fewer bytes remaining than needed, and at least one. -/
def Record.wellFormed : Record → Bool
  | .insn _ n w x => x.wellFormed && decide (x.length = n) && decide (w.toNat < 2 ^ (8 * n.bytes))
  | .unknown _ n w => decide (w.toNat < 2 ^ (8 * n.bytes))
  | .badLength _ b0 => decide (classify b0 = .bad)
  | .truncated _ need remaining => decide (1 ≤ remaining ∧ remaining < need.bytes)

/-- The offsets of the records rise strictly (R25). -/
abbrev OffsetsRise (rs : List Record) : Prop := (rs.map Record.off).Pairwise (· < ·)

/-- Where the cursor may be (R22): even; below `len` while Running; at most `len + 1`. -/
abbrev State.CursorInv (s : State) : Prop :=
  s.cursor % 2 = 0 ∧ (s.status = .running → s.cursor < s.len) ∧ s.cursor ≤ s.len + 1

/-- What the status says of the cursor (R23): Done at or past `len`, Truncated before it. -/
abbrev State.StatusInv (s : State) : Prop :=
  (s.status = .done → s.len ≤ s.cursor) ∧ (s.status = .truncated → s.cursor < s.len)

/-- The records stand one after the other: the first at offset `i`, each next one at its predecessor's offset plus its
advance, and the last leads to `j` (R105, R107). -/
def streamFrom : Nat → List Record → Nat → Bool
  | i, [], j => decide (i = j)
  | i, r :: rs, j => decide (r.off = i) && streamFrom (i + r.advance) rs j

/-- The record is the one that the decode core gives at the record's own offset (R101). -/
abbrev State.Decodes (s : State) (r : Record) : Prop := decodeCore s r.off (s.len - r.off) = .ok (r, r.advance)

/-- The invariant of a scan. -/
structure State.Inv (s : State) : Prop where
  /-- The cursor's range and parity (R22). -/
  cursor : s.CursorInv
  /-- The cursor is past `len` only after an unsupported length at `len - 1` (R22). -/
  overrun : s.cursor = s.len + 1 → ∃ b0, s.out.getLast? = some (.badLength (s.len - 1) b0)
  /-- What the status says of the cursor (R23). -/
  status : s.StatusInv
  /-- The buffer is in its canonical form. -/
  memory : Memory.wf s.buf = true
  /-- Every record has the component ranges of R26. -/
  records : ∀ r ∈ s.out, r.wellFormed = true
  /-- Every record is the decode of the buffer at its offset (R101, R107). -/
  decodes : ∀ r ∈ s.out, s.Decodes r
  /-- The offsets rise strictly (R25). -/
  rising : OffsetsRise s.out
  /-- Every record stands before the cursor, except a final truncation, which stands at it (R233). -/
  before : ∀ r ∈ s.out, r.off < s.cursor ∨ (r.off = s.cursor ∧ s.status = .truncated)
  /-- The records cover the buffer from offset 0 to the cursor without a gap (R105, R107). -/
  stream : streamFrom 0 s.out s.cursor = true

end Sys2Proof.Machine
end

