-- ==== Sys2Proof/Certificates/Slice0/Obligations.lean ====
section
/-! DEFINITION. The statements for the provers, each after the rule of spec/ it formalises. -/

open Sys2Proof Sys2Proof.Machine

namespace Sys2Proof.Claims

/-- The state after a record `r` that advances the cursor by `n`, spelled out (40_decode_step.md R104): one record more,
the cursor moved, the status `Done` if the cursor has reached `len`, and nothing else changed. -/
def after (r : Record) (n : Nat) (s : State) : State where
  buf := s.buf
  len := s.len
  cursor := s.cursor + n
  status := if s.len ≤ s.cursor + n then .done else .running
  out := s.out ++ [r]

/-- The state after the record of a recognized form. -/
def afterInsn (n : InsnLen) (w : Word) (x : Instr) (s : State) : State := after (.insn s.cursor n w x) n.bytes s

/-- The state after a truncation (R233): one record more, the status final, and nothing else changed. -/
def afterTruncated (need : InsnLen) (s : State) : State where
  buf := s.buf
  len := s.len
  cursor := s.cursor
  status := .truncated
  out := s.out ++ [.truncated s.cursor need (s.len - s.cursor)]

/-- In every state where a step is enabled and the `n` bytes at the cursor are the word `w`, the step emits the `Insn`
record of `x` and advances by `n`. No flag, no exception, no other effect. -/
def EmitsForm (n : InsnLen) (w : Word) (x : Instr) : Prop :=
  ∀ s : State, s.Enabled → s.memRead s.cursor n.bytes = some w.toNat → step s = .next (afterInsn n w x s)

/-- In every state where a step is enabled and the `n` bytes at the cursor are the word `w`, the step emits `Unknown`
and advances by `n`. -/
def EmitsUnknown (n : InsnLen) (w : Word) : Prop :=
  ∀ s : State, s.Enabled → s.memRead s.cursor n.bytes = some w.toNat →
    step s = .next (after (.unknown s.cursor n w) n.bytes s)

/-- The class of a supported length. -/
def classOf : InsnLen → LengthClass
  | .two => .len2
  | .four => .len4

/-- How many bytes the decode core may read for a class (R108): 1 for an unsupported length. -/
def readWidth : LengthClass → Nat
  | .len2 => 2
  | .len4 => 4
  | .bad => 1

/-- In a loaded state with at least `n` bytes at the cursor, executing `x` emits the record of `x` with the raw word and
advances by `n`; every byte of the buffer reads as before. The bytes at the cursor need not be those of `x` (log entry 15). -/
def Completes (n : InsnLen) (x : Instr) : Prop :=
  ∀ s : State, s.Enabled → s.Loaded → s.cursor + n.bytes ≤ s.len →
    ∃ w : Word, s.memRead s.cursor n.bytes = some w.toNat ∧ exec x s = .next (afterInsn n w x s) ∧
      ∀ a, (afterInsn n w x s).byteAt a = s.byteAt a

/-- The lowercase hexadecimal digit of a nibble, as a character of its own table. -/
def nibbleChar (v : Nat) : Char := "0123456789abcdef".toList.getD v ' '

/-- The number that a text of digits, most significant first, stands for in a base. -/
def textValue (base : Nat) (ds : List Char) : Nat :=
  ds.foldl (fun v c => base * v + "0123456789abcdef".toList.idxOf c) 0

/-- The text is the number in the base: its digits are digits of the base, its value is the number, and it has no leading
zero unless it is the one digit of zero. -/
def DigitsOf (base n : Nat) (ds : List Char) : Prop :=
  (∀ c ∈ ds, c ∈ "0123456789abcdef".toList.take base) ∧ textValue base ds = n ∧ ds ≠ [] ∧
    (ds.head? = some '0' → ds = ['0'])

end Sys2Proof.Claims

open Sys2Proof.Claims

/-- For every word and every field boundary hi >= lo inside the word, bits(w,hi,lo) is below 2^(hi-lo+1) and its bit k is word bit lo+k for k <= hi-lo; bits(w,k,k) is the single bit k. -/
def Obligations.FieldBitsAreWordBits : Prop :=
  (∀ (n : Nat) (w : BitVec n) (hi lo : Nat) (h : lo ≤ hi ∧ hi < n ∧ hi ≤ 31),
    bits w hi lo h < 2 ^ (hi - lo + 1) ∧
    ∀ k, (bits w hi lo h).testBit k = (decide (k ≤ hi - lo) && w.getLsbD (lo + k))) ∧
  ∀ (n : Nat) (w : BitVec n) (k : Nat) (h : k ≤ k ∧ k < n ∧ k ≤ 31), bits w k k h = (w.getLsbD k).toNat

/-- For every width in [1,32] and every value below 2^width: value - 2^width if bit width-1 is set, value otherwise; it is the two's-complement reading, lies in [-2^(width-1), 2^(width-1)-1], is value modulo 2^width, and the 32-bit port (the spec's decision D2) carries it exactly. -/
def Obligations.SignExtendIsTwosComplement : Prop :=
  ∀ width value : Nat, 1 ≤ width → width ≤ 32 → value < 2 ^ width →
    (value.testBit (width - 1) = true → signExtend value width = (value : Int) - 2 ^ width) ∧
    (value.testBit (width - 1) = false → signExtend value width = value) ∧
    signExtend value width = (BitVec.ofNat width value).toInt ∧
    -(2 ^ (width - 1) : Int) ≤ signExtend value width ∧ signExtend value width ≤ 2 ^ (width - 1) - 1 ∧
    signExtend value width % 2 ^ width = value ∧
    (immPort (signExtend value width)).toInt = signExtend value width

/-- For every word the I-immediate is the sign-extended field w[31:20], in [-2048,2047], exact as 32-bit two's complement; and for every 12-bit v, sign_extend(v,12) is in [-2048,2047] and is v modulo 4096. -/
def Obligations.ImmediateIIsSignExtended : Prop :=
  (∀ w : Word, immI w = (w.extractLsb' 20 12).toInt ∧ immI w = signExtend (w.extractLsb' 20 12).toNat 12 ∧
    -2048 ≤ immI w ∧ immI w ≤ 2047 ∧ (immPort (immI w)).toInt = immI w) ∧
  ∀ v : BitVec 12, -2048 ≤ signExtend v.toNat 12 ∧ signExtend v.toNat 12 ≤ 2047 ∧
    signExtend v.toNat 12 % 4096 = v.toNat

/-- For every word the S-immediate is the sign extension of the joined halves w[31:25] and w[11:7], in [-2048,2047]. -/
def Obligations.ImmediateSJoinsItsHalves : Prop :=
  ∀ w : Word,
    immS w = signExtend ((w.extractLsb' 7 5).toNat ||| ((w.extractLsb' 25 7).toNat <<< 5)) 12 ∧
    immS w = (w.extractLsb' 25 7 ++ w.extractLsb' 7 5).toInt ∧ -2048 ≤ immS w ∧ immS w ≤ 2047

/-- For every word: the B-immediate is the two's-complement reading of w[31], w[7], w[30:25], w[11:8], 0, even and in [-4096,4094]; the J-immediate that of w[31], w[19:12], w[20], w[30:21], 0, even and in [-1048576,1048574] (the spec marks the evenness and ranges of both as its own derivation); the U-immediate that of w[31:12], not shifted, in [-524288,524287]. -/
def Obligations.ScatteredImmediatesAreOffsets : Prop :=
  ∀ w : Word,
    (immB w = (w.extractLsb' 31 1 ++ w.extractLsb' 7 1 ++ w.extractLsb' 25 6 ++ w.extractLsb' 8 4 ++ 0#1).toInt ∧
      immB w % 2 = 0 ∧ -4096 ≤ immB w ∧ immB w ≤ 4094) ∧
    (immJ w = (w.extractLsb' 31 1 ++ w.extractLsb' 12 8 ++ w.extractLsb' 20 1 ++ w.extractLsb' 21 10 ++ 0#1).toInt ∧
      immJ w % 2 = 0 ∧ -1048576 ≤ immJ w ∧ immJ w ≤ 1048574) ∧
    (immU w = (w.extractLsb' 12 20).toInt ∧ -524288 ≤ immU w ∧ immU w ≤ 524287)

/-- For every word: the c.li immediate is w[6:2] + (w[12] << 5), in [0,63], not sign-extended; csr is w[31:20], in [0,4095]; rd, rs1, rs2 of a standard word and rd, rs of a compressed word are their 5-bit fields, in [0,31]. -/
def Obligations.UnsignedOperandFields : Prop :=
  (∀ w : Half, (immCI w).toNat = (w.extractLsb' 2 5).toNat + ((w.extractLsb' 12 1).toNat <<< 5) ∧ (immCI w).toNat ≤ 63) ∧
  (∀ w : Word, csrOf w = w.extractLsb' 20 12 ∧ (csrOf w).toNat ≤ 4095) ∧
  (∀ w : Word, rdOf w = w.extractLsb' 7 5 ∧ rs1Of w = w.extractLsb' 15 5 ∧ rs2Of w = w.extractLsb' 20 5 ∧
    (rdOf w).toNat ≤ 31 ∧ (rs1Of w).toNat ≤ 31 ∧ (rs2Of w).toNat ≤ 31) ∧
  ∀ w : Half, rdOfC w = w.extractLsb' 7 5 ∧ rsOfC w = w.extractLsb' 2 5 ∧ (rdOfC w).toNat ≤ 31 ∧ (rsOfC w).toNat ≤ 31

/-- For every first byte: Len2 iff its low two bits are not both set; Len4 iff they are and bits [4:2] are not all set; Bad otherwise; and on a Bad byte the step emits BadLength and advances the cursor by 2. -/
def Obligations.ClassifierFollowsItsRule : Prop :=
  ∀ b0 : Byte,
    (b0 &&& 0b11 ≠ 0b11 → classify b0 = .len2) ∧
    (b0 &&& 0b11 = 0b11 → b0 &&& 0b11100 ≠ 0b11100 → classify b0 = .len4) ∧
    (b0 &&& 0b11 = 0b11 → b0 &&& 0b11100 = 0b11100 → classify b0 = .bad ∧
      ∀ s : State, s.Enabled → s.byteAt s.cursor = some b0 → step s = .next (after (.badLength s.cursor b0) 2 s))

/-- Two bytes with the same low five bits have the same class; a byte is Bad iff its low five bits are all set, that is iff it is one of 1f, 3f, 5f, 7f, 9f, bf, df, ff; Len4 iff its low five bits are one of seven values (the spec marks the list of bytes as its own derivation). -/
def Obligations.ClassifierReadsFiveBits : Prop :=
  (∀ b c : Byte, b.extractLsb' 0 5 = c.extractLsb' 0 5 → classify b = classify c) ∧
  (∀ b : Byte, classify b = .bad ↔ b.extractLsb' 0 5 = 0b11111#5) ∧
  (∀ b : Byte, classify b = .bad ↔ b ∈ [0x1f#8, 0x3f#8, 0x5f#8, 0x7f#8, 0x9f#8, 0xbf#8, 0xdf#8, 0xff#8]) ∧
  ∀ b : Byte, classify b = .len4 ↔
    b.extractLsb' 0 5 ∈ [0b00011#5, 0b00111#5, 0b01011#5, 0b01111#5, 0b10011#5, 0b10111#5, 0b11011#5]

/-- Where a byte b0 and a 16-bit word are read at one offset, up to the last two bytes of the buffer: b0 is the word's low byte and, for a Len2 byte, the word's bits [1:0] are those of b0 and never 11. Where a 32-bit word is read: b0 is its low byte and, for a Len4 byte, its bits [1:0] are 11 and [4:2] not 111. Where both are read: the 16-bit word is the low half of the other (each marked by the spec as its own derivation). -/
def Obligations.ClassFixesLowWordBits : Prop :=
  ∀ (s : State) (off : Nat) (b0 : Byte), s.byteAt off = some b0 →
    (∀ h : Nat, s.memRead off 2 = some h →
      h % 256 = b0.toNat ∧ h < 65536 ∧ (classify b0 = .len2 → h % 4 = b0.toNat % 4 ∧ h % 4 ≠ 3)) ∧
    (∀ w : Nat, s.memRead off 4 = some w →
      w % 256 = b0.toNat ∧ w < 4294967296 ∧ (classify b0 = .len4 → w % 4 = 3 ∧ w / 4 % 8 ≠ 7)) ∧
    ∀ h w : Nat, s.memRead off 2 = some h → s.memRead off 4 = some w → w % 65536 = h

/-- If buf[off+k] is f k for every k < n, MemRead(off,n) is the sum over k of f k << 8k, and for n > 0 a read that gives a value lies inside the buffer: off + n <= len. -/
def Obligations.MemReadIsLittleEndian : Prop :=
  (∀ (s : State) (off n : Nat) (f : Nat → Byte), (∀ k < n, s.byteAt (off + k) = some (f k)) →
    s.memRead off n = some (∑ k ∈ Finset.range n, (f k).toNat <<< (8 * k))) ∧
  ∀ (s : State) (off n v : Nat), 0 < n → s.memRead off n = some v → off + n ≤ s.len

/-- Two states of one length whose bytes agree at the offset and on the classified length's bytes that remain (one byte for an unsupported length) decode alike there, whatever else they hold: other bytes, earlier records, cursor and status. -/
def Obligations.DecodeReadsOnlyTheInstruction : Prop :=
  ∀ (s t : State) (i : Nat), s.len = t.len → s.byteAt i = t.byteAt i →
    (∀ b0, s.byteAt i = some b0 → ∀ k, k < min (s.len - i) (readWidth (classify b0)) →
      s.byteAt (i + k) = t.byteAt (i + k)) →
    decodeCore s i (s.len - i) = decodeCore t i (t.len - i)

/-- For every 16-bit word: op 01 and funct3 000 give CAddi; op 01, funct3 010 and rd nonzero give CLi with rd and the unsigned immediate; op 10, funct3 100, rs and rd nonzero and bit 12 zero give CMv; any other word is not recognized and its step emits Unknown. -/
def Obligations.CompressedOpcodeMap : Prop :=
  ∀ w : Half,
    (w.extractLsb' 0 2 = 0b01#2 ∧ w.extractLsb' 13 3 = 0b000#3 → decodeC w = some .cAddi) ∧
    (w.extractLsb' 0 2 = 0b01#2 ∧ w.extractLsb' 13 3 = 0b010#3 ∧ w.extractLsb' 7 5 ≠ 0 →
      decodeC w = some (.cLi (w.extractLsb' 7 5) (w.extractLsb' 12 1 ++ w.extractLsb' 2 5))) ∧
    (w.extractLsb' 0 2 = 0b10#2 ∧ w.extractLsb' 13 3 = 0b100#3 ∧ w.extractLsb' 2 5 ≠ 0 ∧ w.extractLsb' 7 5 ≠ 0 ∧
        w.extractLsb' 12 1 = 0 →
      decodeC w = some (.cMv (w.extractLsb' 7 5) (w.extractLsb' 2 5))) ∧
    (¬(w.extractLsb' 0 2 = 0b01#2 ∧ w.extractLsb' 13 3 = 0b000#3) →
      ¬(w.extractLsb' 0 2 = 0b01#2 ∧ w.extractLsb' 13 3 = 0b010#3 ∧ w.extractLsb' 7 5 ≠ 0) →
      ¬(w.extractLsb' 0 2 = 0b10#2 ∧ w.extractLsb' 13 3 = 0b100#3 ∧ w.extractLsb' 2 5 ≠ 0 ∧ w.extractLsb' 7 5 ≠ 0 ∧
        w.extractLsb' 12 1 = 0) →
      decodeC w = none ∧ (w.extractLsb' 0 2 ≠ 0b11#2 → EmitsUnknown .two (w.setWidth 32)))

/-- DecodeC is None exactly when none of the conditions of c.addi, c.li and c.mv holds; so it is None on every word with op 00, on op 01 with funct3 neither 000 nor 010, on op 01, funct3 010 with rd 0, and on op 10 outside the c.mv pattern. -/
def Obligations.CompressedUnknownSpace : Prop :=
  (∀ w : Half, decodeC w = none ↔ ¬MatchesCAddi w ∧ ¬MatchesCLi w ∧ ¬MatchesCMv w) ∧
  (∀ w : Half, w.extractLsb' 0 2 = 0b00#2 → decodeC w = none) ∧
  (∀ w : Half, w.extractLsb' 0 2 = 0b01#2 → w.extractLsb' 13 3 ≠ 0b000#3 → w.extractLsb' 13 3 ≠ 0b010#3 →
    decodeC w = none) ∧
  (∀ w : Half, w.extractLsb' 0 2 = 0b01#2 → w.extractLsb' 13 3 = 0b010#3 → w.extractLsb' 7 5 = 0 → decodeC w = none) ∧
  ∀ w : Half, w.extractLsb' 0 2 = 0b10#2 → ¬MatchesCMv w → decodeC w = none

/-- For every 32-bit word: each of the ten rows of the map gives its record with the operands of its format; wfi and ecall are two exact words; any other word is not recognized and its step emits Unknown. -/
def Obligations.StandardOpcodeMap : Prop :=
  ∀ w : Word,
    (w.extractLsb' 0 7 = 0b0010011#7 ∧ w.extractLsb' 12 3 = 0b000#3 → decodeS w = some (.addi (w.extractLsb' 7 5) (w.extractLsb' 15 5) (w.extractLsb' 20 12).toInt)) ∧
    (w.extractLsb' 0 7 = 0b0100011#7 ∧ w.extractLsb' 12 3 = 0b010#3 → decodeS w = some (.sw (w.extractLsb' 20 5) (w.extractLsb' 15 5) (w.extractLsb' 25 7 ++ w.extractLsb' 7 5).toInt)) ∧
    (w.extractLsb' 0 7 = 0b0000011#7 ∧ w.extractLsb' 12 3 = 0b010#3 → decodeS w = some (.lw (w.extractLsb' 7 5) (w.extractLsb' 15 5) (w.extractLsb' 20 12).toInt)) ∧
    (w.extractLsb' 0 7 = 0b1100011#7 ∧ w.extractLsb' 12 3 = 0b001#3 → decodeS w = some (.bne (w.extractLsb' 15 5) (w.extractLsb' 20 5)
        (w.extractLsb' 31 1 ++ w.extractLsb' 7 1 ++ w.extractLsb' 25 6 ++ w.extractLsb' 8 4 ++ 0#1).toInt)) ∧
    (w.extractLsb' 0 7 = 0b1100011#7 ∧ w.extractLsb' 12 3 = 0b100#3 → decodeS w = some (.blt (w.extractLsb' 15 5) (w.extractLsb' 20 5)
        (w.extractLsb' 31 1 ++ w.extractLsb' 7 1 ++ w.extractLsb' 25 6 ++ w.extractLsb' 8 4 ++ 0#1).toInt)) ∧
    (w.extractLsb' 0 7 = 0b1101111#7 → decodeS w = some (.jal (w.extractLsb' 7 5)
        (w.extractLsb' 31 1 ++ w.extractLsb' 12 8 ++ w.extractLsb' 20 1 ++ w.extractLsb' 21 10 ++ 0#1).toInt)) ∧
    (w.extractLsb' 0 7 = 0b0110111#7 → decodeS w = some (.lui (w.extractLsb' 7 5) (w.extractLsb' 12 20).toInt)) ∧
    (w.extractLsb' 0 7 = 0b1110011#7 ∧ w.extractLsb' 12 3 = 0b010#3 → decodeS w = some (.csrrs (w.extractLsb' 7 5) (w.extractLsb' 20 12) (w.extractLsb' 15 5))) ∧
    (w = 0x10500073#32 → decodeS w = some (.wfi)) ∧
    (w = 0x00000073#32 → decodeS w = some (.ecall)) ∧
    (¬(w.extractLsb' 0 7 = 0b0010011#7 ∧ w.extractLsb' 12 3 = 0b000#3) →
      ¬(w.extractLsb' 0 7 = 0b0100011#7 ∧ w.extractLsb' 12 3 = 0b010#3) →
      ¬(w.extractLsb' 0 7 = 0b0000011#7 ∧ w.extractLsb' 12 3 = 0b010#3) →
      ¬(w.extractLsb' 0 7 = 0b1100011#7 ∧ w.extractLsb' 12 3 = 0b001#3) →
      ¬(w.extractLsb' 0 7 = 0b1100011#7 ∧ w.extractLsb' 12 3 = 0b100#3) →
      ¬(w.extractLsb' 0 7 = 0b1101111#7) →
      ¬(w.extractLsb' 0 7 = 0b0110111#7) →
      ¬(w.extractLsb' 0 7 = 0b1110011#7 ∧ w.extractLsb' 12 3 = 0b010#3) →
      ¬(w = 0x10500073#32) →
      ¬(w = 0x00000073#32) →
      decodeS w = none ∧ (classify (w.setWidth 8) = .len4 → EmitsUnknown .four w))

/-- DecodeS is None exactly when none of the ten conditions holds; so it is None for every opcode not in the map, for a listed opcode with an unlisted funct3, and for a SYSTEM word with funct3 other than 010 that is neither exact word. -/
def Obligations.StandardUnknownSpace : Prop :=
  (∀ w : Word, decodeS w = none ↔
    ¬MatchesAddi w ∧ ¬MatchesSw w ∧ ¬MatchesLw w ∧ ¬MatchesBne w ∧ ¬MatchesBlt w ∧ ¬MatchesJal w ∧ ¬MatchesLui w ∧
      ¬MatchesCsrrs w ∧ ¬MatchesWfi w ∧ ¬MatchesEcall w) ∧
  (∀ w : Word, w.extractLsb' 0 7 ∉ [0b0010011#7, 0b0100011#7, 0b0000011#7, 0b1100011#7, 0b1101111#7, 0b0110111#7,
    0b1110011#7] → decodeS w = none) ∧
  (∀ w : Word, w.extractLsb' 0 7 = 0b0010011#7 → w.extractLsb' 12 3 ≠ 0b000#3 → decodeS w = none) ∧
  (∀ w : Word, w.extractLsb' 0 7 = 0b0100011#7 → w.extractLsb' 12 3 ≠ 0b010#3 → decodeS w = none) ∧
  (∀ w : Word, w.extractLsb' 0 7 = 0b0000011#7 → w.extractLsb' 12 3 ≠ 0b010#3 → decodeS w = none) ∧
  (∀ w : Word, w.extractLsb' 0 7 = 0b1100011#7 → w.extractLsb' 12 3 ≠ 0b001#3 → w.extractLsb' 12 3 ≠ 0b100#3 →
    decodeS w = none) ∧
  ∀ w : Word, w.extractLsb' 0 7 = 0b1110011#7 → w.extractLsb' 12 3 ≠ 0b010#3 → w ≠ 0x10500073#32 →
    w ≠ 0x00000073#32 → decodeS w = none

/-- For every word at most one of the three compressed conditions holds, and at most one of the ten standard conditions, so the order in which a decoder tests them is immaterial (the spec marks this as its own derivation). -/
def Obligations.FormsAreDisjoint : Prop :=
  (∀ w : Half, [decide (MatchesCAddi w), decide (MatchesCLi w), decide (MatchesCMv w)].count true ≤ 1) ∧
  ∀ w : Word, [decide (MatchesAddi w), decide (MatchesSw w), decide (MatchesLw w), decide (MatchesBne w),
    decide (MatchesBlt w), decide (MatchesJal w), decide (MatchesLui w), decide (MatchesCsrrs w),
    decide (MatchesWfi w), decide (MatchesEcall w)].count true ≤ 1

/-- A word with op 01 and funct3 000 emits CAddi and advances by 2, whatever bits [12:2] are (rd 0 and a zero immediate included); only such words decode to CAddi; the examples 0505, 0001 and 157d. That the record carries no operand field is the spec's own decision D3. -/
def Obligations.CAddiFollowsItsRule : Prop :=
  (∀ w : Half, w.extractLsb' 0 2 = 0b01#2 ∧ w.extractLsb' 13 3 = 0b000#3 → EmitsForm .two (w.setWidth 32) .cAddi) ∧
  (∀ w : Half, decodeC w = some .cAddi → w.extractLsb' 0 2 = 0b01#2 ∧ w.extractLsb' 13 3 = 0b000#3) ∧
  decodeC 0x0505#16 = some (.cAddi) ∧
  decodeC 0x0001#16 = some (.cAddi) ∧
  decodeC 0x157d#16 = some (.cAddi)

/-- A word with op 01, funct3 010 and rd nonzero emits CLi(rd, w[6:2] + (w[12] << 5)) and advances by 2, the immediate unsigned in [0,63]; only such words decode to CLi; rd 0 decodes to Unknown; w[12] set gives an immediate of at least 32; a zero immediate matches; the examples 4515, 557d. -/
def Obligations.CLiFollowsItsRule : Prop :=
  (∀ w : Half, w.extractLsb' 0 2 = 0b01#2 ∧ w.extractLsb' 13 3 = 0b010#3 → w.extractLsb' 7 5 ≠ 0 →
    EmitsForm .two (w.setWidth 32) (.cLi (w.extractLsb' 7 5) (w.extractLsb' 12 1 ++ w.extractLsb' 2 5)) ∧
    (w.extractLsb' 12 1 ++ w.extractLsb' 2 5).toNat =
      (w.extractLsb' 2 5).toNat + ((w.extractLsb' 12 1).toNat <<< 5)) ∧
  (∀ (w : Half) (rd : RegIndex) (imm : BitVec 6), decodeC w = some (.cLi rd imm) →
    (w.extractLsb' 0 2 = 0b01#2 ∧ w.extractLsb' 13 3 = 0b010#3 ∧ w.extractLsb' 7 5 ≠ 0) ∧ (w.extractLsb' 12 1 = 1 → 32 ≤ imm.toNat)) ∧
  (∀ w : Half, w.extractLsb' 0 2 = 0b01#2 ∧ w.extractLsb' 13 3 = 0b010#3 → w.extractLsb' 7 5 = 0 → EmitsUnknown .two (w.setWidth 32)) ∧
  decodeC 0x4515#16 = some (.cLi 10 5) ∧
  decodeC 0x557d#16 = some (.cLi 10 63) ∧
  decodeC 0x4501#16 = some (.cLi 10 0)

/-- A word with op 10, funct3 100, w[12] 0 and rs and rd nonzero emits CMv(rd, rs) and advances by 2 (rd = rs included); only such words decode to CMv; rs 0, rd 0 or w[12] 1 decode to Unknown; the example 852e. -/
def Obligations.CMvFollowsItsRule : Prop :=
  (∀ w : Half, w.extractLsb' 0 2 = 0b10#2 ∧ w.extractLsb' 13 3 = 0b100#3 → w.extractLsb' 2 5 ≠ 0 → w.extractLsb' 7 5 ≠ 0 →
    w.extractLsb' 12 1 = 0 → EmitsForm .two (w.setWidth 32) (.cMv (w.extractLsb' 7 5) (w.extractLsb' 2 5))) ∧
  (∀ (w : Half) (rd rs : RegIndex), decodeC w = some (.cMv rd rs) →
    w.extractLsb' 0 2 = 0b10#2 ∧ w.extractLsb' 13 3 = 0b100#3 ∧ w.extractLsb' 2 5 ≠ 0 ∧ w.extractLsb' 7 5 ≠ 0 ∧ w.extractLsb' 12 1 = 0) ∧
  (∀ w : Half, w.extractLsb' 0 2 = 0b10#2 ∧ w.extractLsb' 13 3 = 0b100#3 →
    (w.extractLsb' 2 5 = 0 ∨ w.extractLsb' 7 5 = 0 ∨ w.extractLsb' 12 1 = 1) → EmitsUnknown .two (w.setWidth 32)) ∧
  decodeC 0x852e#16 = some (.cMv 10 11) ∧
  decodeC 0x852a#16 = some (.cMv 10 10)

/-- A word with opcode 0010011 and funct3 000 emits Addi(rd, rs1, sext_12(w[31:20])) and advances by 4; only such words decode to Addi; the other funct3 values decode to Unknown; the extreme immediates, rd 0, rd = rs1 and the example 00500513. -/
def Obligations.AddiFollowsItsRule : Prop :=
  (∀ w : Word, w.extractLsb' 0 7 = 0b0010011#7 → w.extractLsb' 12 3 = 0b000#3 → EmitsForm .four w
      (.addi (w.extractLsb' 7 5) (w.extractLsb' 15 5) (w.extractLsb' 20 12).toInt)) ∧
  (∀ (w : Word) (rd rs1 : RegIndex) (imm : Int), decodeS w = some (.addi rd rs1 imm) → w.extractLsb' 0 7 = 0b0010011#7 ∧ w.extractLsb' 12 3 = 0b000#3) ∧
  (∀ w : Word, w.extractLsb' 0 7 = 0b0010011#7 → w.extractLsb' 12 3 ≠ 0b000#3 → EmitsUnknown .four w) ∧
  decodeS 0x00500513#32 = some (.addi 10 0 5) ∧
  decodeS 0x80000093#32 = some (.addi 1 0 (-2048)) ∧
  decodeS 0x7ff00093#32 = some (.addi 1 0 2047) ∧
  decodeS 0x00000013#32 = some (.addi 0 0 0) ∧
  decodeS 0xff010113#32 = some (.addi 2 2 (-16))

/-- A word with opcode 0100011 and funct3 010 emits Sw(rs2, rs1, offset) with the offset joined from w[31:25] and w[11:7] before sign extension, and advances by 4 with the buffer unchanged; w[31] set gives a negative offset; the other funct3 values decode to Unknown; the examples. -/
def Obligations.SwFollowsItsRule : Prop :=
  (∀ w : Word, w.extractLsb' 0 7 = 0b0100011#7 → w.extractLsb' 12 3 = 0b010#3 → EmitsForm .four w
      (.sw (w.extractLsb' 20 5) (w.extractLsb' 15 5) (w.extractLsb' 25 7 ++ w.extractLsb' 7 5).toInt)) ∧
  (∀ (w : Word) (rs2 rs1 : RegIndex) (imm : Int), decodeS w = some (.sw rs2 rs1 imm) → w.extractLsb' 0 7 = 0b0100011#7 ∧ w.extractLsb' 12 3 = 0b010#3) ∧
  (∀ w : Word, w.extractLsb' 0 7 = 0b0100011#7 → w.extractLsb' 12 3 ≠ 0b010#3 → EmitsUnknown .four w) ∧
  (∀ (w : Word) (rs2 rs1 : RegIndex) (imm : Int), decodeS w = some (.sw rs2 rs1 imm) → w.getLsbD 31 = true → imm < 0) ∧
  decodeS 0x00112623#32 = some (.sw 1 2 12) ∧
  decodeS 0xfea42e23#32 = some (.sw 10 8 (-4))

/-- A word with opcode 0000011 and funct3 010 emits Lw(rd, rs1, sext_12(w[31:20])) with the base from w[19:15], and advances by 4; only such words decode to Lw; the other funct3 values decode to Unknown; it is rendered without the comma, sw with it; the example 00812503. -/
def Obligations.LwFollowsItsRule : Prop :=
  (∀ w : Word, w.extractLsb' 0 7 = 0b0000011#7 → w.extractLsb' 12 3 = 0b010#3 → EmitsForm .four w
      (.lw (w.extractLsb' 7 5) (w.extractLsb' 15 5) (w.extractLsb' 20 12).toInt)) ∧
  (∀ (w : Word) (rd rs1 : RegIndex) (imm : Int), decodeS w = some (.lw rd rs1 imm) → w.extractLsb' 0 7 = 0b0000011#7 ∧ w.extractLsb' 12 3 = 0b010#3) ∧
  (∀ w : Word, w.extractLsb' 0 7 = 0b0000011#7 → w.extractLsb' 12 3 ≠ 0b010#3 → EmitsUnknown .four w) ∧
  (∀ (w : Word) (r b : RegIndex) (imm : Int),
    insnText w (.lw r b imm) = "lw " ++ regText r ++ " " ++ dec imm ++ "(" ++ regText b ++ ")" ∧
    insnText w (.sw r b imm) = "sw " ++ regText r ++ ", " ++ dec imm ++ "(" ++ regText b ++ ")") ∧
  decodeS 0x00812503#32 = some (.lw 10 2 8)

/-- A word with opcode 1100011 and the funct3 of bne emits Bne(rs1, rs2, offset) with the scattered B-immediate, even and in [-4096,4094], and advances by 4; only such words decode to Bne; funct3 000, 101, 110 and 111 decode to Unknown; the extreme offsets, rs1 = rs2 and the example. -/
def Obligations.BneFollowsItsRule : Prop :=
  (∀ w : Word, w.extractLsb' 0 7 = 0b1100011#7 → w.extractLsb' 12 3 = 0b001#3 → EmitsForm .four w
      (.bne (w.extractLsb' 15 5) (w.extractLsb' 20 5)
        (w.extractLsb' 31 1 ++ w.extractLsb' 7 1 ++ w.extractLsb' 25 6 ++ w.extractLsb' 8 4 ++ 0#1).toInt)) ∧
  (∀ (w : Word) (rs1 rs2 : RegIndex) (imm : Int), decodeS w = some (.bne rs1 rs2 imm) → w.extractLsb' 0 7 = 0b1100011#7 ∧ w.extractLsb' 12 3 = 0b001#3) ∧
  (∀ w : Word, w.extractLsb' 0 7 = 0b1100011#7 → w.extractLsb' 12 3 ∈ [0b000#3, 0b101#3, 0b110#3, 0b111#3] →
    EmitsUnknown .four w) ∧
  (∀ (w : Word) (rs1 rs2 : RegIndex) (imm : Int), decodeS w = some (.bne rs1 rs2 imm) →
    imm % 2 = 0 ∧ -4096 ≤ imm ∧ imm ≤ 4094) ∧
  decodeS 0x00051463#32 = some (.bne 10 0 8) ∧
  decodeS 0x80001063#32 = some (.bne 0 0 (-4096)) ∧
  decodeS 0x7e001fe3#32 = some (.bne 0 0 4094)

/-- A word with opcode 1100011 and the funct3 of blt emits Blt(rs1, rs2, offset) with the scattered B-immediate, even and in [-4096,4094], and advances by 4; only such words decode to Blt; funct3 000, 101, 110 and 111 decode to Unknown; the extreme offsets, rs1 = rs2 and the example. -/
def Obligations.BltFollowsItsRule : Prop :=
  (∀ w : Word, w.extractLsb' 0 7 = 0b1100011#7 → w.extractLsb' 12 3 = 0b100#3 → EmitsForm .four w
      (.blt (w.extractLsb' 15 5) (w.extractLsb' 20 5)
        (w.extractLsb' 31 1 ++ w.extractLsb' 7 1 ++ w.extractLsb' 25 6 ++ w.extractLsb' 8 4 ++ 0#1).toInt)) ∧
  (∀ (w : Word) (rs1 rs2 : RegIndex) (imm : Int), decodeS w = some (.blt rs1 rs2 imm) → w.extractLsb' 0 7 = 0b1100011#7 ∧ w.extractLsb' 12 3 = 0b100#3) ∧
  (∀ w : Word, w.extractLsb' 0 7 = 0b1100011#7 → w.extractLsb' 12 3 ∈ [0b000#3, 0b101#3, 0b110#3, 0b111#3] →
    EmitsUnknown .four w) ∧
  (∀ (w : Word) (rs1 rs2 : RegIndex) (imm : Int), decodeS w = some (.blt rs1 rs2 imm) →
    imm % 2 = 0 ∧ -4096 ≤ imm ∧ imm ≤ 4094) ∧
  decodeS 0xfeb54ee3#32 = some (.blt 10 11 (-4)) ∧
  decodeS 0x80004063#32 = some (.blt 0 0 (-4096)) ∧
  decodeS 0x7e004fe3#32 = some (.blt 0 0 4094)

/-- A word with opcode 1101111, whatever bits [14:12] are, emits Jal(rd, offset) with the scattered J-immediate, even and in [-1048576,1048574], and advances by 4; only such words decode to Jal; the extreme offsets, rd 0 and the examples. -/
def Obligations.JalFollowsItsRule : Prop :=
  (∀ w : Word, w.extractLsb' 0 7 = 0b1101111#7 → EmitsForm .four w
      (.jal (w.extractLsb' 7 5)
        (w.extractLsb' 31 1 ++ w.extractLsb' 12 8 ++ w.extractLsb' 20 1 ++ w.extractLsb' 21 10 ++ 0#1).toInt)) ∧
  (∀ (w : Word) (rd : RegIndex) (imm : Int), decodeS w = some (.jal rd imm) → w.extractLsb' 0 7 = 0b1101111#7) ∧
  (∀ (w : Word) (rd : RegIndex) (imm : Int), decodeS w = some (.jal rd imm) →
    imm % 2 = 0 ∧ -1048576 ≤ imm ∧ imm ≤ 1048574) ∧
  decodeS 0x010000ef#32 = some (.jal 1 16) ∧
  decodeS 0xff9ff06f#32 = some (.jal 0 (-8)) ∧
  decodeS 0x8000006f#32 = some (.jal 0 (-1048576)) ∧
  decodeS 0x7ffff06f#32 = some (.jal 0 1048574)

/-- A word with opcode 0110111, whatever bits [14:12] are, emits Lui(rd, sext_20(w[31:12])), the field itself and not shifted, in [-524288,524287], and advances by 4; only such words decode to Lui; opcode 0010111 decodes to Unknown; the extreme values, rd 0 and the example. -/
def Obligations.LuiFollowsItsRule : Prop :=
  (∀ w : Word, w.extractLsb' 0 7 = 0b0110111#7 → EmitsForm .four w
      (.lui (w.extractLsb' 7 5) (w.extractLsb' 12 20).toInt)) ∧
  (∀ (w : Word) (rd : RegIndex) (imm : Int), decodeS w = some (.lui rd imm) → w.extractLsb' 0 7 = 0b0110111#7) ∧
  (∀ w : Word, w.extractLsb' 0 7 = 0b0010111#7 → EmitsUnknown .four w) ∧
  (∀ (w : Word) (rd : RegIndex) (imm : Int), decodeS w = some (.lui rd imm) → -524288 ≤ imm ∧ imm ≤ 524287) ∧
  decodeS 0x12345537#32 = some (.lui 10 74565) ∧
  decodeS 0x80000537#32 = some (.lui 10 (-524288)) ∧
  decodeS 0xfffff537#32 = some (.lui 10 (-1)) ∧
  decodeS 0x7ffff537#32 = some (.lui 10 524287) ∧
  decodeS 0x00000037#32 = some (.lui 0 0)

/-- A word with opcode 1110011 and funct3 010 emits Csrrs(rd, csr, rs1) with csr = w[31:20] unsigned, every 12-bit address accepted, and advances by 4; only such words decode to Csrrs; funct3 001, 011, 101, 110 and 111 decode to Unknown; the name lookup is total; rd 0, rs1 0 and the example. -/
def Obligations.CsrrsFollowsItsRule : Prop :=
  (∀ w : Word, w.extractLsb' 0 7 = 0b1110011#7 → w.extractLsb' 12 3 = 0b010#3 → EmitsForm .four w
      (.csrrs (w.extractLsb' 7 5) (w.extractLsb' 20 12) (w.extractLsb' 15 5))) ∧
  (∀ (w : Word) (rd : RegIndex) (csr : CsrAddr) (rs1 : RegIndex), decodeS w = some (.csrrs rd csr rs1) → w.extractLsb' 0 7 = 0b1110011#7 ∧ w.extractLsb' 12 3 = 0b010#3) ∧
  (∀ w : Word, w.extractLsb' 0 7 = 0b1110011#7 → w.extractLsb' 12 3 ∈ [0b001#3, 0b011#3, 0b101#3, 0b110#3, 0b111#3] →
    EmitsUnknown .four w) ∧
  (∀ a : CsrAddr, ∃ w : Word, ∃ rd rs1 : RegIndex, decodeS w = some (.csrrs rd a rs1)) ∧
  (∀ a : CsrAddr, (∃ n, Config.csrName a = some n ∧ csrText a = n) ∨ (Config.csrName a = none ∧ csrText a = "(unknown)")) ∧
  decodeS 0xc0002573#32 = some (.csrrs 10 0xc00 0) ∧
  decodeS 0xfff02073#32 = some (.csrrs 0 0xfff 0)

/-- The word 10500073 emits Wfi and the scan goes on at i + 4 without a stall; no other word decodes to Wfi; every other SYSTEM word with funct3 000 but the ecall word decodes to Unknown, as 10500573 does. -/
def Obligations.WfiFollowsItsRule : Prop :=
  (∀ w : Word, w = 0x10500073#32 → EmitsForm .four w
      (.wfi)) ∧
  (∀ w : Word, decodeS w = some (.wfi) → w = 0x10500073#32) ∧
  (∀ w : Word, w.extractLsb' 0 7 = 0b1110011#7 → w.extractLsb' 12 3 = 0b000#3 → w ≠ 0x10500073#32 → w ≠ 0x00000073#32 →
    EmitsUnknown .four w) ∧
  decodeS 0x10500073#32 = some (.wfi) ∧
  decodeS 0x10500573#32 = none

/-- The word 00000073 emits Ecall and the scan goes on at i + 4 with no trap; no other word decodes to Ecall; ebreak, mret, sret and every other SYSTEM word with funct3 000 but the wfi word decode to Unknown. -/
def Obligations.EcallFollowsItsRule : Prop :=
  (∀ w : Word, w = 0x00000073#32 → EmitsForm .four w
      (.ecall)) ∧
  (∀ w : Word, decodeS w = some (.ecall) → w = 0x00000073#32) ∧
  (∀ w : Word, w.extractLsb' 0 7 = 0b1110011#7 → w.extractLsb' 12 3 = 0b000#3 → w ≠ 0x10500073#32 → w ≠ 0x00000073#32 →
    EmitsUnknown .four w) ∧
  decodeS 0x00000073#32 = some (.ecall) ∧
  decodeS 0x00100073#32 = none ∧
  decodeS 0x30200073#32 = none ∧
  decodeS 0x10200073#32 = none ∧
  decodeS 0x00000873#32 = none

/-- In every enabled, loaded state with 4 bytes left, executing bne, blt or jal, whatever the registers and the offset, gives a next state: its record with the offset as encoded, the cursor 4 further, the buffer and all else unchanged. That this holds also where the bytes at the cursor are not those of the form, with the word that stands there in the record, is the model's choice (log entry 15); a step executes only the form it decoded. -/
def Obligations.ControlTransferKeepsScanLinear : Prop :=
  (∀ (rs1 rs2 : RegIndex) (imm : Int), Completes .four (.bne rs1 rs2 imm)) ∧
  (∀ (rs1 rs2 : RegIndex) (imm : Int), Completes .four (.blt rs1 rs2 imm)) ∧
  ∀ (rd : RegIndex) (imm : Int), Completes .four (.jal rd imm)

/-- In every enabled, loaded state with 4 bytes left, executing csrrs (every address), wfi or ecall gives a next state: its record, the cursor 4 further, and all else unchanged: no CSR, no wait, no trap (the spec marks this as its own derivation). That this holds also where the bytes at the cursor are not those of the form, with the word that stands there in the record, is the model's choice (log entry 15); a step executes only the form it decoded. -/
def Obligations.SystemFormsHaveNoEffect : Prop :=
  (∀ (rd rs1 : RegIndex) (csr : CsrAddr), Completes .four (.csrrs rd csr rs1)) ∧ Completes .four .wfi ∧
    Completes .four .ecall

/-- In every enabled, loaded state with 2 bytes left, executing c.addi, c.li or c.mv, whatever the operands, gives a next state: its record with the raw word zero-extended, the cursor 2 further, and all else unchanged. That this holds also where the bytes at the cursor are not those of the form, with the word that stands there in the record, is the model's choice (log entry 15); a step executes only the form it decoded. -/
def Obligations.CompressedFormsComplete : Prop :=
  Completes .two .cAddi ∧ (∀ (rd : RegIndex) (imm : BitVec 6), Completes .two (.cLi rd imm)) ∧
    ∀ rd rs : RegIndex, Completes .two (.cMv rd rs)

/-- In every enabled, loaded state with 4 bytes left, executing addi, sw, lw or lui, whatever the operands, gives a next state: its record with the raw word, the cursor 4 further, every byte of the buffer and all else unchanged. That this holds also where the bytes at the cursor are not those of the form, with the word that stands there in the record, is the model's choice (log entry 15); a step executes only the form it decoded. -/
def Obligations.IntegerMemoryUpperFormsComplete : Prop :=
  (∀ (rd rs1 : RegIndex) (imm : Int), Completes .four (.addi rd rs1 imm)) ∧
  (∀ (rs2 rs1 : RegIndex) (imm : Int), Completes .four (.sw rs2 rs1 imm)) ∧
  (∀ (rd rs1 : RegIndex) (imm : Int), Completes .four (.lw rd rs1 imm)) ∧
  ∀ (rd : RegIndex) (imm : Int), Completes .four (.lui rd imm)

/-- In every enabled state with fewer bytes remaining than the length of the form, executing it, whichever form, raises Truncated: that record, the final status, the cursor where it was, and nothing read. That executing a form checks the bounds at all is the model's choice (log entry 15): a step settles the truncation before it executes a form. That the scan stops is the spec's own decision D4. -/
def Obligations.ShortBufferTruncatesEveryForm : Prop :=
  ∀ (x : Instr) (s : State), s.Enabled → s.len - s.cursor < x.length.bytes →
    exec x s = .next (afterTruncated x.length s)

/-- For every form and every state, if exec answers a next state: the buffer, every byte of it and len are unchanged, the earlier records are kept in order with exactly one appended at the old cursor, and the cursor is unchanged (with the status Truncated) or moved by the form's length. That a truncation leaves the cursor and ends the scan is the spec's own decision D4; that executing a form can end in it, and that the form may stand at bytes that are not its own, is the model's choice (log entry 15). -/
def Obligations.ExecFrame : Prop :=
  ∀ (x : Instr) (s t : State), exec x s = .next t →
    t.buf = s.buf ∧ t.len = s.len ∧ (∀ a, t.byteAt a = s.byteAt a) ∧
    (∃ r : Record, t.out = s.out ++ [r] ∧ r.off = s.cursor) ∧
    ((t.cursor = s.cursor ∧ t.status = .truncated) ∨
      (t.cursor = s.cursor + x.length.bytes ∧ t.status = if s.len ≤ t.cursor then .done else .running))

/-- When a step is enabled and the bytes at the cursor decode to an instruction x, the step is exec of x at that state, and that is the next state with the record of x at the cursor, its word and length, and the cursor moved past its bytes. -/
def Obligations.StepRunsDecodedInstruction : Prop :=
  ∀ (s : State) (bs : List Byte) (n : InsnLen) (w : Word) (x : Instr), s.Enabled →
    (∀ (k : Nat) (h : k < bs.length), s.byteAt (s.cursor + k) = some bs[k]) → decodeBytes bs = .insn n w x →
    step s = exec x s ∧ exec x s = .next (afterInsn n w x s)

/-- In every state, reached or not, the step that dispatches to the meanings gives the same outcome as the pseudocode step: decode, emit, then the final status or the advance (the truncation branch is the spec's own decision D4). -/
def Obligations.StepIsTheSpecStep : Prop :=
  ∀ s : State, step s = scanStep s

/-- Every step appends a record and moves the cursor by 2 after an Insn or Unknown of length 2, by 4 after one of length 4, by 2 after BadLength and by 0 after Truncated, which is final. -/
def Obligations.CursorAdvancesByRecord : Prop :=
  ∀ s t : State, step s = .next t → ∃ r : Record, t.out = s.out ++ [r] ∧
    (∀ off w x, r = .insn off .two w x → t.cursor = s.cursor + 2) ∧
    (∀ off w, r = .unknown off .two w → t.cursor = s.cursor + 2) ∧
    (∀ off w x, r = .insn off .four w x → t.cursor = s.cursor + 4) ∧
    (∀ off w, r = .unknown off .four w → t.cursor = s.cursor + 4) ∧
    (∀ off b0, r = .badLength off b0 → t.cursor = s.cursor + 2) ∧
    (∀ off need remaining, r = .truncated off need remaining →
      t.cursor = s.cursor ∧ t.Final)

/-- After a step that is not a truncation the status is Done iff the cursor is at or past len, else Running; where the status is not Running or the cursor is at or past len no step is enabled (the model's fault noStepEnabled, its own choice, log entry 4), and a whole scan from a final state changes nothing. -/
def Obligations.TerminalAndFinalStates : Prop :=
  (∀ s t : State, step s = .next t →
    t.status = .truncated ∨ (t.len ≤ t.cursor ∧ t.status = .done) ∨ (t.cursor < t.len ∧ t.status = .running)) ∧
  (∀ s : State, (s.status ≠ .running ∨ s.len ≤ s.cursor) → step s = .fault .noStepEnabled) ∧
  ∀ (s : State) (k : Nat), s.Final → runScan k s = .next s

/-- Every step keeps the earlier records and appends exactly one, at the cursor; from a state that satisfies the scan invariant the offsets of the whole stream rise strictly. -/
def Obligations.OneRecordPerStepInOrder : Prop :=
  ∀ s t : State, step s = .next t → ∃ r : Record, t.out = s.out ++ [r] ∧ r.off = s.cursor ∧
    (s.Inv → OffsetsRise t.out)

/-- No step changes the buffer or len; a load that succeeds sets exactly the given bytes and len <= MAX_LEN for the MAX_LEN it is given, and leaves cursor, status and stream alone; a load during a scan, or of too many bytes, is refused by name. The spec calls the first a run without a meaning and limits len; that the host's load answers with a refusal is the model's choice (log entries 7 and 6). -/
def Obligations.LaunchParametersAreNotWritten : Prop :=
  (∀ s t : State, step s = .next t → t.buf = s.buf ∧ t.len = s.len) ∧
  (∀ (maxLen : Nat) (bytes : List Byte) (s : State), s.status ≠ .running → bytes.length ≤ maxLen →
    ∃ t, hostLoad maxLen bytes s = .next t ∧ t.len = bytes.length ∧ t.len ≤ maxLen ∧
      (∀ (k : Nat) (h : k < bytes.length), t.byteAt k = some bytes[k]) ∧ Memory.wf t.buf = true ∧
      t.cursor = s.cursor ∧ t.status = s.status ∧ t.out = s.out) ∧
  (∀ (maxLen : Nat) (bytes : List Byte) (s : State), s.status = .running →
    hostLoad maxLen bytes s = .refused .bufferWriteDuringScan) ∧
  ∀ (maxLen : Nat) (bytes : List Byte) (s : State), s.status ≠ .running → maxLen < bytes.length →
    hostLoad maxLen bytes s = .refused .bufferTooLong

/-- When a step is enabled and the byte at the cursor classifies as Bad, the step emits BadLength(i, b0) and moves the cursor to i + 2; the status stays Running unless i + 2 >= len, when it becomes Done; only the one byte is consulted. -/
def Obligations.UnsupportedLengthSkipsTwo : Prop :=
  ∀ (s : State) (b0 : Byte), s.Enabled → s.byteAt s.cursor = some b0 → classify b0 = .bad →
    ∃ t, step s = .next t ∧ t.out = s.out ++ [.badLength s.cursor b0] ∧ t.cursor = s.cursor + 2 ∧
      t.buf = s.buf ∧ t.len = s.len ∧
      (s.cursor + 2 < s.len → t.status = .running) ∧ (s.len ≤ s.cursor + 2 → t.status = .done)

/-- When a step is enabled and the classified length exceeds the bytes remaining, the step emits Truncated(i, need, have) with 1 <= have < need, leaves the cursor and sets the final status, after which no step is enabled (the model's fault noStepEnabled, its own choice, log entry 4); only the first byte is read. That it stops the scan is the spec's own decision D4. -/
def Obligations.TruncationIsFinal : Prop :=
  ∀ (s : State) (b0 : Byte) (need : InsnLen), s.Enabled → s.byteAt s.cursor = some b0 → classify b0 = classOf need →
    s.len - s.cursor < need.bytes →
    step s = .next (afterTruncated need s) ∧ 1 ≤ s.len - s.cursor ∧
    step (afterTruncated need s) = .fault .noStepEnabled

/-- When a step is enabled, the first byte has a supported class, the word of that length is in the buffer and no form matches it, the step emits Unknown(i, len, word) and advances like a recognized word of that length: nothing is raised. -/
def Obligations.UnknownWordAdvances : Prop :=
  ∀ (s : State) (b0 : Byte) (n : InsnLen) (w : Word), s.Enabled → s.byteAt s.cursor = some b0 →
    classify b0 = classOf n → s.memRead s.cursor n.bytes = some w.toNat → routeWord n w = none →
    step s = .next (after (.unknown s.cursor n w) n.bytes s)

/-- In every step the kind of the appended record is 2 if the first byte is Bad (even with one byte left), else 3 if the classified length exceeds the bytes remaining, else 0 if a form matches the word, else 1 (the first place of BadLength is the spec's decision D5, the codes its D20). -/
def Obligations.StepPriority : Prop :=
  ∀ (s t : State) (b0 : Byte), step s = .next t → s.byteAt s.cursor = some b0 →
    ∃ r : Record, t.out = s.out ++ [r] ∧
      (classify b0 = .bad → kindCode r = 2) ∧
      ∀ n : InsnLen, classify b0 = classOf n →
        (s.len - s.cursor < n.bytes → kindCode r = 3) ∧
        ∀ w : Word, s.memRead s.cursor n.bytes = some w.toNat →
          ((routeWord n w).isSome = true → kindCode r = 0) ∧ ((routeWord n w).isSome = false → kindCode r = 1)

/-- After a step that appended BadLength or Unknown, if the advanced cursor is below len a step is enabled there, its record stands at that cursor, and in a loaded buffer it gives a next state; the earlier record is kept and no step is retried. -/
def Obligations.ErrorsAreIsolated : Prop :=
  ∀ (s t : State) (r : Record), step s = .next t → t.out = s.out ++ [r] →
    (∀ off n w x, r ≠ .insn off n w x) → (∀ off need remaining, r ≠ .truncated off need remaining) →
    s.cursor < t.cursor ∧ (t.cursor < t.len → t.Enabled ∧
      (t.Loaded → ∃ u q, step t = .next u ∧ u.out = t.out ++ [q] ∧ q.off = t.cursor))

/-- In every state where a step is enabled and the host has loaded every byte below len, whatever the bytes are, the step gives a next state: the block has no other condition that stops it; the buffer and len are kept, so it stays loaded, and one record more stands in the stream. -/
def Obligations.EnabledLoadedStepCompletes : Prop :=
  ∀ s : State, s.Enabled → s.Loaded → ∃ t, step s = .next t ∧ t.Loaded ∧ t.buf = s.buf ∧
    t.len = s.len ∧ t.out.length = s.out.length + 1

/-- From every state that satisfies the invariant, a step gives a state that satisfies it: cursor even and in its range, past len only after BadLength at len - 1, status in step with it, buffer canonical, every record well-formed and the decode of the buffer at its offset, offsets strictly rising and covering the buffer up to the cursor without a gap. -/
def Obligations.StepKeepsScanInvariant : Prop :=
  ∀ s t : State, s.Inv → step s = .next t → t.Inv

/-- Start from any state gives cursor 0, an empty stream, Running if len > 0 else Done, over the buffer as it is, and with a canonical buffer the invariant holds; every launched buffer is loaded and satisfies it; so does State.reset (whose empty buffer is the model's choice, log entry 1). -/
def Obligations.StartEstablishesInvariant : Prop :=
  (∀ s : State, hostStart s = { s with cursor := 0, status := if 0 < s.len then .running else .done, out := [] }) ∧
  (∀ s : State, Memory.wf s.buf = true → (hostStart s).Inv) ∧
  (∀ bytes : List Byte, (launch bytes).Inv ∧ (launch bytes).Loaded ∧ (launch bytes).len = bytes.length ∧
    ∀ (k : Nat) (h : k < bytes.length), (launch bytes).byteAt k = some bytes[k]) ∧
  State.reset.Inv ∧ State.reset.cursor = 0 ∧ State.reset.out = [] ∧ State.reset.status = .done

/-- In every state that satisfies the invariant, for every MAX_LEN with len <= MAX_LEN, the cursor is below 2^ceil(log2(MAX_LEN+2)); for the source's 1024 that is 11 bits. That a register of that width suffices is the spec's decision D15. -/
def Obligations.CursorFitsItsWidth : Prop :=
  (∀ (s : State) (maxLen : Nat), s.Inv → s.len ≤ maxLen → s.cursor < 2 ^ Config.cursorWidth maxLen) ∧
  (∀ maxLen : Nat, maxLen + 2 ≤ 2 ^ Config.cursorWidth maxLen ∧ 2 ^ (Config.cursorWidth maxLen - 1) < maxLen + 2) ∧
  Config.cursorWidth Config.sourceMaxLen = 11

/-- For every buffer the scan within ceil(len/2) steps gives a final state that satisfies the invariant, with at most that many records and the buffer as loaded; and from every state that satisfies the invariant over a loaded buffer the rest of the scan ends within ceil((len-i)/2) steps (the spec marks the bound as its own derivation). -/
def Obligations.EveryScanEnds : Prop :=
  (∀ bytes : List Byte, ∃ t, scan bytes = .next t ∧ t.Final ∧ t.Inv ∧ t.out.length ≤ (bytes.length + 1) / 2 ∧
    ∀ (k : Nat) (h : k < bytes.length), t.byteAt k = some bytes[k]) ∧
  ∀ s : State, s.Inv → s.Loaded → ∃ t, runScan (stepBound (s.len - s.cursor)) s = .next t ∧ t.Final ∧ t.Inv ∧
    t.out.length ≤ s.out.length + stepBound (s.len - s.cursor)

/-- For every well-formed instruction of all 13 forms, with every operand at every value the encoding admits, its encoded bytes decode to it, with its length and its word; and further bytes after them do not change that. -/
def Obligations.DecodeOfEncodeIsIdentity : Prop :=
  ∀ (x : Instr) (rest : List Byte), x.wellFormed = true →
    decodeBytes ((encode x).toBytes ++ rest) = .insn x.length (encode x).toWord x

/-- If a standard word decodes to x then it is the encoding of x; if a compressed word decodes to x, and x is not CAddi, then it is the encoding of x (c.addi carries no operands, so its word is the model's choice, log entry 12). -/
def Obligations.EncodeOfDecodeIsIdentity : Prop :=
  (∀ (w : Word) (x : Instr), decodeS w = some x → encode x = .word w) ∧
  ∀ (w : Half) (x : Instr), decodeC w = some x → x ≠ .cAddi → encode x = .half w

/-- Whatever word of whatever length is routed, if it gives a form then the form has that length and every operand is in the range its record type states. -/
def Obligations.DecodedFormsAreWellFormed : Prop :=
  ∀ (n : InsnLen) (w : Word) (x : Instr), routeWord n w = some x → x.length = n ∧ x.wellFormed = true

/-- One word of each family, bytes as they stand in the buffer: 01 00, the bytes of the source's scenario, is c.addi (by the spec's choice C1), c.li 4515, c.mv 852e, addi 00500513, sw fea42e23, lw 00812503, blt feb54ee3, jal ff9ff06f, lui 12345537, csrrs c0002573, wfi, ecall; and 0000 and 00b50533 are Unknown, ff is BadLength, 73 00 50 is Truncated. -/
def Obligations.SampleWordsDecode : Prop :=
  decodeBytes [0x01#8, 0x00#8] = .insn .two 0x0001#32 .cAddi ∧
  decodeBytes [0x15#8, 0x45#8] = .insn .two 0x4515#32 (.cLi 10 5) ∧
  decodeBytes [0x2e#8, 0x85#8] = .insn .two 0x852e#32 (.cMv 10 11) ∧
  decodeBytes [0x13#8, 0x05#8, 0x50#8, 0x00#8] = .insn .four 0x00500513#32 (.addi 10 0 5) ∧
  decodeBytes [0x23#8, 0x2e#8, 0xa4#8, 0xfe#8] = .insn .four 0xfea42e23#32 (.sw 10 8 (-4)) ∧
  decodeBytes [0x03#8, 0x25#8, 0x81#8, 0x00#8] = .insn .four 0x00812503#32 (.lw 10 2 8) ∧
  decodeBytes [0xe3#8, 0x4e#8, 0xb5#8, 0xfe#8] = .insn .four 0xfeb54ee3#32 (.blt 10 11 (-4)) ∧
  decodeBytes [0x6f#8, 0xf0#8, 0x9f#8, 0xff#8] = .insn .four 0xff9ff06f#32 (.jal 0 (-8)) ∧
  decodeBytes [0x37#8, 0x55#8, 0x34#8, 0x12#8] = .insn .four 0x12345537#32 (.lui 10 74565) ∧
  decodeBytes [0x73#8, 0x25#8, 0x00#8, 0xc0#8] = .insn .four 0xc0002573#32 (.csrrs 10 0xc00 0) ∧
  decodeBytes [0x73#8, 0x00#8, 0x50#8, 0x10#8] = .insn .four 0x10500073#32 .wfi ∧
  decodeBytes [0x73#8, 0x00#8, 0x00#8, 0x00#8] = .insn .four 0x00000073#32 .ecall ∧
  decodeBytes [0x00#8, 0x00#8] = .unknown .two 0#32 ∧
  decodeBytes [0x33#8, 0x05#8, 0xb5#8, 0x00#8] = .unknown .four 0x00b50533#32 ∧
  decodeBytes [0xff#8] = .badLength 0xff#8 ∧ decodeBytes [0x73#8, 0x00#8, 0x50#8] = .truncated .four 3

/-- In every enabled state over a loaded buffer, for any value of the undriven ports and any don't-care bytes of the window, the record and the advance read from the driven ports are those of Decode(i, len - i), and the kind port has the record's code (the layout is the spec's decision D20). -/
def Obligations.PortsCarryTheRecord : Prop :=
  ∀ (s : State) (any : Ports) (dontCare : Word), s.Enabled → s.Loaded →
    ∃ (r : Record) (adv : Nat), decodeCore s s.cursor (s.len - s.cursor) = .ok (r, adv) ∧
      recordOfPorts s.cursor (corePorts (s.window dontCare) s.availPort any) = some (r, adv) ∧
      (corePorts (s.window dontCare) s.availPort any).kind = kindCode r

/-- For every integer, dec is a minus sign if it is negative and then decimal digits whose value is its magnitude; hexu is 0x and then lowercase hexadecimal digits whose value is it modulo 2^32; both without a leading zero, but for the one digit of zero. That is the spec's own decision D11 (no plus sign, no leading zeros) and D12 (a negative value, no padding). -/
def Obligations.ImmediateTextIsItsNumber : Prop :=
  ∀ v : Int,
    (∃ ds : List Char, (dec v).toList = (if v < 0 then ['-'] else []) ++ ds ∧ DigitsOf 10 v.natAbs ds) ∧
    ∃ ds : List Char, (hexu v).toList = '0' :: 'x' :: ds ∧ DigitsOf 16 (v % 4294967296).toNat ds

/-- For every word the dump of a 4-byte record is its eight nibbles from the highest down as hexadecimal digits; the dump of a 2-byte record is four spaces and the four low nibbles. Lowercase is the spec's own decision D8. -/
def Obligations.DumpIsEightColumns : Prop :=
  (∀ w : Word, (dumpText .four w).toList =
    [7, 6, 5, 4, 3, 2, 1, 0].map fun k => nibbleChar (w.extractLsb' (4 * k) 4).toNat) ∧
  ∀ w : Word, (dumpText .two w).toList =
    [' ', ' ', ' ', ' '] ++ [3, 2, 1, 0].map fun k => nibbleChar (w.extractLsb' (4 * k) 4).toNat

/-- For every form and all operands the rendered text is the table's: the mnemonic, the register names, the immediate in decimal (lui in hexadecimal), the CSR name; lw without the comma. The 32 register names are distinct, none is empty, and the fixed points of the spec's table hold (zero 0, ra 1, sp 2, s0 8, a0 10, t6 31); their order is the spec's own decision D17. -/
def Obligations.RenderedTextOfEachForm : Prop :=
  (∀ (w : Word) (a b : RegIndex) (u : BitVec 6) (c : CsrAddr) (i : Int),
    insnText w .cAddi = "c.addi" ++ Config.cAddiOperandText (w.setWidth 16) ∧
    insnText w (.cLi a u) = "c.li " ++ regText a ++ ", " ++ dec u.toNat ∧
    insnText w (.cMv a b) = "c.mv " ++ regText a ++ ", " ++ regText b ∧
    insnText w (.addi a b i) = "addi " ++ regText a ++ ", " ++ regText b ++ ", " ++ dec i ∧
    insnText w (.sw a b i) = "sw " ++ regText a ++ ", " ++ dec i ++ "(" ++ regText b ++ ")" ∧
    insnText w (.lw a b i) = "lw " ++ regText a ++ " " ++ dec i ++ "(" ++ regText b ++ ")" ∧
    insnText w (.bne a b i) = "bne " ++ regText a ++ ", " ++ regText b ++ ", " ++ dec i ∧
    insnText w (.blt a b i) = "blt " ++ regText a ++ ", " ++ regText b ++ ", " ++ dec i ∧
    insnText w (.jal a i) = "jal " ++ regText a ++ ", " ++ dec i ∧
    insnText w (.lui a i) = "lui " ++ regText a ++ ", " ++ hexu i ∧
    insnText w (.csrrs a c b) = "csrrs " ++ regText a ++ ", " ++ csrText c ++ ", " ++ regText b ∧
    insnText w .wfi = "wfi" ∧ insnText w .ecall = "ecall") ∧
  regNames.length = 32 ∧ regNames.Nodup ∧ (∀ r : RegIndex, regText r ≠ "") ∧
  regText 0 = "zero" ∧ regText 1 = "ra" ∧ regText 2 = "sp" ∧ regText 8 = "s0" ∧ regText 10 = "a0" ∧ regText 31 = "t6"

/-- The text of the empty stream is empty, and the text of a stream extended by a record is the text of the stream followed by the record's, on both streams; Insn and Unknown write to the output only, BadLength and Truncated to the diagnostics only, and a BadLength text contains the byte's two hexadecimal digits (their case is open; this shape is the model's, log entry 11). -/
def Obligations.ScanTextIsPerRecordInOrder : Prop :=
  renderScan [] = ("", "") ∧
  (∀ (rs : List Record) (r : Record), renderScan (rs ++ [r]) =
    ((renderScan rs).1 ++ (render r).1, (renderScan rs).2 ++ (render r).2)) ∧
  (∀ off n w x, (render (.insn off n w x)).1 = dumpText n w ++ "  " ++ insnText w x ++ "\n" ∧
    (render (.insn off n w x)).2 = "") ∧
  (∀ off n w, render (.unknown off n w) = (dumpText n w ++ "\n", "")) ∧
  (∀ off need remaining, render (.truncated off need remaining) = ("", Config.truncatedText off need.bytes remaining)) ∧
  ∀ off b0, (render (.badLength off b0)).1 = "" ∧
    ∃ before digits behind : String, (render (.badLength off b0)).2 = before ++ digits ++ behind ∧
      digits.toList.map Char.toLower = [nibbleChar (b0.toNat / 16), nibbleChar (b0.toNat % 16)]
end

