-- ==== Sys2Proof/Laws/Operands.lean ====
section
/-! SUPPORT. The bit fields and sign extension in terms of BitVec and of division and remainder. -/

namespace Sys2Proof

/-- A field as a quotient and a remainder: the form `omega` works with. -/
theorem bits_eq_div_mod {n : Nat} (w : BitVec n) (hi lo : Nat) (h : lo ≤ hi ∧ hi < n ∧ hi ≤ 31) :
    bits w hi lo h = w.toNat / 2 ^ lo % 2 ^ (hi - lo + 1) := by
  rw [bits, mask, Nat.and_two_pow_sub_one_eq_mod, Nat.shiftRight_eq_div_pow]

/-- A field as a sub-vector. -/
theorem bits_eq_extract {n : Nat} (w : BitVec n) (hi lo : Nat) (h : lo ≤ hi ∧ hi < n ∧ hi ≤ 31) :
    bits w hi lo h = (w.extractLsb' lo (hi - lo + 1)).toNat := by
  rw [bits_eq_div_mod, BitVec.extractLsb'_toNat, Nat.shiftRight_eq_div_pow]

/-- Concatenation as a sum: the form `omega` works with. -/
theorem toNat_append_eq_add {m n : Nat} (x : BitVec m) (y : BitVec n) :
    (x ++ y).toNat = x.toNat * 2 ^ n + y.toNat := by
  rw [BitVec.toNat_append, ← Nat.shiftLeft_add_eq_or_of_lt y.isLt, Nat.shiftLeft_eq]

/-- The rule's `a | b` of a low field and a shifted high field is their sum (00_scope.md R9). -/
theorem low_or_shift {a b i : Nat} (ha : a < 2 ^ i) : a ||| (b <<< i) = b * 2 ^ i + a := by
  rw [Nat.lor_comm, ← Nat.shiftLeft_add_eq_or_of_lt ha, Nat.shiftLeft_eq]

/-- Sign extension reads an `n`-bit vector as two's complement. -/
theorem signExtend_toNat {n : Nat} (v : BitVec n) : signExtend v.toNat n = v.toInt := by
  have hmsb : v.toNat.testBit (n - 1) = v.msb := by
    rw [BitVec.msb_eq_getLsbD_last]; rfl
  rw [signExtend, hmsb, BitVec.toInt_eq_msb_cond]
  norm_cast

end Sys2Proof
end

