-- ==== Sys2Proof/Laws/Decode.lean ====
section
/-! SUPPORT. What the routers and the classifier can answer, said once. Cite these rather than unfold a router. -/

namespace Sys2Proof

/-- The classifier in terms of remainders: the form `omega` works with. -/
theorem classify_eq : ∀ b0 : Byte,
    classify b0 = if b0.toNat % 4 ≠ 3 then .len2 else if b0.toNat / 4 % 8 ≠ 7 then .len4 else .bad := by
  decide +kernel

/-- If decodeC gives a form, the form's condition holds and the form is its payload. -/
theorem decodeC_inv {w : Half} {x : Instr} (h : decodeC w = some x) :
    (MatchesCAddi w ∧ x = .cAddi) ∨
    (MatchesCLi w ∧ x = .cLi (rdOfC w) (immCI w)) ∨
    (MatchesCMv w ∧ x = .cMv (rdOfC w) (rsOfC w)) := by
  unfold decodeC at h
  by_cases h0 : MatchesCAddi w
  · rw [if_pos h0] at h; exact .inl ⟨h0, (Option.some.inj h).symm⟩
  rw [if_neg h0] at h
  by_cases h1 : MatchesCLi w
  · rw [if_pos h1] at h; exact .inr (.inl ⟨h1, (Option.some.inj h).symm⟩)
  rw [if_neg h1] at h
  by_cases h2 : MatchesCMv w
  · rw [if_pos h2] at h; exact .inr (.inr (⟨h2, (Option.some.inj h).symm⟩))
  rw [if_neg h2] at h
  simp at h

theorem decodeC_ofCAddi {w : Half} (h : MatchesCAddi w) : decodeC w = some .cAddi := by
  unfold decodeC
  rw [if_pos h]

theorem decodeC_ofCLi {w : Half} (h : MatchesCLi w) : decodeC w = some (.cLi (rdOfC w) (immCI w)) := by
  unfold decodeC
  rw [if_neg (show ¬MatchesCAddi w by unfold MatchesCAddi; unfold MatchesCLi at h; omega)]
  rw [if_pos h]

theorem decodeC_ofCMv {w : Half} (h : MatchesCMv w) : decodeC w = some (.cMv (rdOfC w) (rsOfC w)) := by
  unfold decodeC
  rw [if_neg (show ¬MatchesCAddi w by unfold MatchesCAddi; unfold MatchesCMv at h; omega)]
  rw [if_neg (show ¬MatchesCLi w by unfold MatchesCLi; unfold MatchesCMv at h; omega)]
  rw [if_pos h]

theorem decodeC_none {w : Half} (h0 : ¬MatchesCAddi w) (h1 : ¬MatchesCLi w) (h2 : ¬MatchesCMv w) :
    decodeC w = none := by
  unfold decodeC
  rw [if_neg h0, if_neg h1, if_neg h2]

/-- If decodeS gives a form, the form's condition holds and the form is its payload. -/
theorem decodeS_inv {w : Word} {x : Instr} (h : decodeS w = some x) :
    (MatchesAddi w ∧ x = .addi (rdOf w) (rs1Of w) (immI w)) ∨
    (MatchesSw w ∧ x = .sw (rs2Of w) (rs1Of w) (immS w)) ∨
    (MatchesLw w ∧ x = .lw (rdOf w) (rs1Of w) (immI w)) ∨
    (MatchesBne w ∧ x = .bne (rs1Of w) (rs2Of w) (immB w)) ∨
    (MatchesBlt w ∧ x = .blt (rs1Of w) (rs2Of w) (immB w)) ∨
    (MatchesJal w ∧ x = .jal (rdOf w) (immJ w)) ∨
    (MatchesLui w ∧ x = .lui (rdOf w) (immU w)) ∨
    (MatchesCsrrs w ∧ x = .csrrs (rdOf w) (csrOf w) (rs1Of w)) ∨
    (MatchesWfi w ∧ x = .wfi) ∨
    (MatchesEcall w ∧ x = .ecall) := by
  unfold decodeS at h
  by_cases h0 : MatchesAddi w
  · rw [if_pos h0] at h; exact .inl ⟨h0, (Option.some.inj h).symm⟩
  rw [if_neg h0] at h
  by_cases h1 : MatchesSw w
  · rw [if_pos h1] at h; exact .inr (.inl ⟨h1, (Option.some.inj h).symm⟩)
  rw [if_neg h1] at h
  by_cases h2 : MatchesLw w
  · rw [if_pos h2] at h; exact .inr (.inr (.inl ⟨h2, (Option.some.inj h).symm⟩))
  rw [if_neg h2] at h
  by_cases h3 : MatchesBne w
  · rw [if_pos h3] at h; exact .inr (.inr (.inr (.inl ⟨h3, (Option.some.inj h).symm⟩)))
  rw [if_neg h3] at h
  by_cases h4 : MatchesBlt w
  · rw [if_pos h4] at h; exact .inr (.inr (.inr (.inr (.inl ⟨h4, (Option.some.inj h).symm⟩))))
  rw [if_neg h4] at h
  by_cases h5 : MatchesJal w
  · rw [if_pos h5] at h; exact .inr (.inr (.inr (.inr (.inr (.inl ⟨h5, (Option.some.inj h).symm⟩)))))
  rw [if_neg h5] at h
  by_cases h6 : MatchesLui w
  · rw [if_pos h6] at h; exact .inr (.inr (.inr (.inr (.inr (.inr (.inl ⟨h6, (Option.some.inj h).symm⟩))))))
  rw [if_neg h6] at h
  by_cases h7 : MatchesCsrrs w
  · rw [if_pos h7] at h; exact .inr (.inr (.inr (.inr (.inr (.inr (.inr (.inl ⟨h7, (Option.some.inj h).symm⟩)))))))
  rw [if_neg h7] at h
  by_cases h8 : MatchesWfi w
  · rw [if_pos h8] at h; exact .inr (.inr (.inr (.inr (.inr (.inr (.inr (.inr (.inl ⟨h8, (Option.some.inj h).symm⟩))))))))
  rw [if_neg h8] at h
  by_cases h9 : MatchesEcall w
  · rw [if_pos h9] at h; exact .inr (.inr (.inr (.inr (.inr (.inr (.inr (.inr (.inr (⟨h9, (Option.some.inj h).symm⟩)))))))))
  rw [if_neg h9] at h
  simp at h

theorem decodeS_ofAddi {w : Word} (h : MatchesAddi w) : decodeS w = some (.addi (rdOf w) (rs1Of w) (immI w)) := by
  unfold decodeS
  rw [if_pos h]

theorem decodeS_ofSw {w : Word} (h : MatchesSw w) : decodeS w = some (.sw (rs2Of w) (rs1Of w) (immS w)) := by
  unfold decodeS
  rw [if_neg (show ¬MatchesAddi w by unfold MatchesAddi; unfold MatchesSw at h; omega)]
  rw [if_pos h]

theorem decodeS_ofLw {w : Word} (h : MatchesLw w) : decodeS w = some (.lw (rdOf w) (rs1Of w) (immI w)) := by
  unfold decodeS
  rw [if_neg (show ¬MatchesAddi w by unfold MatchesAddi; unfold MatchesLw at h; omega)]
  rw [if_neg (show ¬MatchesSw w by unfold MatchesSw; unfold MatchesLw at h; omega)]
  rw [if_pos h]

theorem decodeS_ofBne {w : Word} (h : MatchesBne w) : decodeS w = some (.bne (rs1Of w) (rs2Of w) (immB w)) := by
  unfold decodeS
  rw [if_neg (show ¬MatchesAddi w by unfold MatchesAddi; unfold MatchesBne at h; omega)]
  rw [if_neg (show ¬MatchesSw w by unfold MatchesSw; unfold MatchesBne at h; omega)]
  rw [if_neg (show ¬MatchesLw w by unfold MatchesLw; unfold MatchesBne at h; omega)]
  rw [if_pos h]

theorem decodeS_ofBlt {w : Word} (h : MatchesBlt w) : decodeS w = some (.blt (rs1Of w) (rs2Of w) (immB w)) := by
  unfold decodeS
  rw [if_neg (show ¬MatchesAddi w by unfold MatchesAddi; unfold MatchesBlt at h; omega)]
  rw [if_neg (show ¬MatchesSw w by unfold MatchesSw; unfold MatchesBlt at h; omega)]
  rw [if_neg (show ¬MatchesLw w by unfold MatchesLw; unfold MatchesBlt at h; omega)]
  rw [if_neg (show ¬MatchesBne w by unfold MatchesBne; unfold MatchesBlt at h; omega)]
  rw [if_pos h]

theorem decodeS_ofJal {w : Word} (h : MatchesJal w) : decodeS w = some (.jal (rdOf w) (immJ w)) := by
  unfold decodeS
  rw [if_neg (show ¬MatchesAddi w by unfold MatchesAddi; unfold MatchesJal at h; omega)]
  rw [if_neg (show ¬MatchesSw w by unfold MatchesSw; unfold MatchesJal at h; omega)]
  rw [if_neg (show ¬MatchesLw w by unfold MatchesLw; unfold MatchesJal at h; omega)]
  rw [if_neg (show ¬MatchesBne w by unfold MatchesBne; unfold MatchesJal at h; omega)]
  rw [if_neg (show ¬MatchesBlt w by unfold MatchesBlt; unfold MatchesJal at h; omega)]
  rw [if_pos h]

theorem decodeS_ofLui {w : Word} (h : MatchesLui w) : decodeS w = some (.lui (rdOf w) (immU w)) := by
  unfold decodeS
  rw [if_neg (show ¬MatchesAddi w by unfold MatchesAddi; unfold MatchesLui at h; omega)]
  rw [if_neg (show ¬MatchesSw w by unfold MatchesSw; unfold MatchesLui at h; omega)]
  rw [if_neg (show ¬MatchesLw w by unfold MatchesLw; unfold MatchesLui at h; omega)]
  rw [if_neg (show ¬MatchesBne w by unfold MatchesBne; unfold MatchesLui at h; omega)]
  rw [if_neg (show ¬MatchesBlt w by unfold MatchesBlt; unfold MatchesLui at h; omega)]
  rw [if_neg (show ¬MatchesJal w by unfold MatchesJal; unfold MatchesLui at h; omega)]
  rw [if_pos h]

theorem decodeS_ofCsrrs {w : Word} (h : MatchesCsrrs w) : decodeS w = some (.csrrs (rdOf w) (csrOf w) (rs1Of w)) := by
  unfold decodeS
  rw [if_neg (show ¬MatchesAddi w by unfold MatchesAddi; unfold MatchesCsrrs at h; omega)]
  rw [if_neg (show ¬MatchesSw w by unfold MatchesSw; unfold MatchesCsrrs at h; omega)]
  rw [if_neg (show ¬MatchesLw w by unfold MatchesLw; unfold MatchesCsrrs at h; omega)]
  rw [if_neg (show ¬MatchesBne w by unfold MatchesBne; unfold MatchesCsrrs at h; omega)]
  rw [if_neg (show ¬MatchesBlt w by unfold MatchesBlt; unfold MatchesCsrrs at h; omega)]
  rw [if_neg (show ¬MatchesJal w by unfold MatchesJal; unfold MatchesCsrrs at h; omega)]
  rw [if_neg (show ¬MatchesLui w by unfold MatchesLui; unfold MatchesCsrrs at h; omega)]
  rw [if_pos h]

theorem decodeS_ofWfi {w : Word} (h : MatchesWfi w) : decodeS w = some .wfi := by
  subst h; rfl

theorem decodeS_ofEcall {w : Word} (h : MatchesEcall w) : decodeS w = some .ecall := by
  subst h; rfl

theorem decodeS_none {w : Word} (h0 : ¬MatchesAddi w) (h1 : ¬MatchesSw w) (h2 : ¬MatchesLw w) (h3 : ¬MatchesBne w) (h4 : ¬MatchesBlt w) (h5 : ¬MatchesJal w) (h6 : ¬MatchesLui w) (h7 : ¬MatchesCsrrs w) (h8 : ¬MatchesWfi w) (h9 : ¬MatchesEcall w) :
    decodeS w = none := by
  unfold decodeS
  rw [if_neg h0, if_neg h1, if_neg h2, if_neg h3, if_neg h4, if_neg h5, if_neg h6, if_neg h7, if_neg h8, if_neg h9]

end Sys2Proof
end

