-- ==== Sys2Proof/Laws/State.lean ====
section
/-! SUPPORT. One lemma per field and per update of the state. -/

namespace Sys2Proof.Machine

/-! ### emit -/
@[simp] theorem emit_buf (r : Record) (s : State) : (emit r s).buf = s.buf := rfl
@[simp] theorem emit_len (r : Record) (s : State) : (emit r s).len = s.len := rfl
@[simp] theorem emit_cursor (r : Record) (s : State) : (emit r s).cursor = s.cursor := rfl
@[simp] theorem emit_status (r : Record) (s : State) : (emit r s).status = s.status := rfl
@[simp] theorem emit_out (r : Record) (s : State) : (emit r s).out = s.out ++ [r] := rfl

/-! ### advance -/
@[simp] theorem advance_buf (n : Nat) (s : State) : (advance n s).buf = s.buf := rfl
@[simp] theorem advance_len (n : Nat) (s : State) : (advance n s).len = s.len := rfl
@[simp] theorem advance_cursor (n : Nat) (s : State) : (advance n s).cursor = s.cursor + n := rfl
@[simp] theorem advance_status (n : Nat) (s : State) :
    (advance n s).status = if s.len ≤ s.cursor + n then .done else s.status := rfl
@[simp] theorem advance_out (n : Nat) (s : State) : (advance n s).out = s.out := rfl

/-! ### commit -/
@[simp] theorem commit_buf (r : Record) (n : Nat) (s : State) : (commit r n s).buf = s.buf := rfl
@[simp] theorem commit_len (r : Record) (n : Nat) (s : State) : (commit r n s).len = s.len := rfl
@[simp] theorem commit_cursor (r : Record) (n : Nat) (s : State) : (commit r n s).cursor = s.cursor + n := rfl
@[simp] theorem commit_status (r : Record) (n : Nat) (s : State) :
    (commit r n s).status = if s.len ≤ s.cursor + n then .done else s.status := rfl
@[simp] theorem commit_out (r : Record) (n : Nat) (s : State) : (commit r n s).out = s.out ++ [r] := rfl

/-! ### raiseTruncated -/
@[simp] theorem raiseTruncated_buf (n : InsnLen) (s : State) : (raiseTruncated n s).buf = s.buf := rfl
@[simp] theorem raiseTruncated_len (n : InsnLen) (s : State) : (raiseTruncated n s).len = s.len := rfl
@[simp] theorem raiseTruncated_cursor (n : InsnLen) (s : State) : (raiseTruncated n s).cursor = s.cursor := rfl
@[simp] theorem raiseTruncated_status (n : InsnLen) (s : State) : (raiseTruncated n s).status = .truncated := rfl
@[simp] theorem raiseTruncated_out (n : InsnLen) (s : State) :
    (raiseTruncated n s).out = s.out ++ [.truncated s.cursor n (s.len - s.cursor)] := rfl

/-! ### takeBadLength -/
@[simp] theorem takeBadLength_buf (b : Byte) (s : State) : (takeBadLength b s).buf = s.buf := rfl
@[simp] theorem takeBadLength_len (b : Byte) (s : State) : (takeBadLength b s).len = s.len := rfl
@[simp] theorem takeBadLength_cursor (b : Byte) (s : State) : (takeBadLength b s).cursor = s.cursor + 2 := rfl
@[simp] theorem takeBadLength_status (b : Byte) (s : State) :
    (takeBadLength b s).status = if s.len ≤ s.cursor + 2 then .done else s.status := rfl
@[simp] theorem takeBadLength_out (b : Byte) (s : State) :
    (takeBadLength b s).out = s.out ++ [.badLength s.cursor b] := rfl

/-! ### hostStart -/
@[simp] theorem hostStart_buf (s : State) : (hostStart s).buf = s.buf := rfl
@[simp] theorem hostStart_len (s : State) : (hostStart s).len = s.len := rfl
@[simp] theorem hostStart_cursor (s : State) : (hostStart s).cursor = 0 := rfl
@[simp] theorem hostStart_status (s : State) : (hostStart s).status = startStatus s.len := rfl
@[simp] theorem hostStart_out (s : State) : (hostStart s).out = [] := rfl

end Sys2Proof.Machine
end

