-- ==== Sys2Proof/Laws/Ops.lean ====
section
/-! SUPPORT. What the shared operations can do: reading the buffer, the effect of a form, the decode core. -/

namespace Sys2Proof.Machine

/-! ### Reading the buffer -/

theorem byteAt_lt {s : State} {a : Nat} {b : Byte} (h : s.byteAt a = some b) : a < s.len := by
  unfold State.byteAt at h
  split at h
  · assumption
  · simp at h

theorem byteAt_of_loaded {s : State} (hl : ∀ a < s.len, (Memory.read s.buf a).isSome = true) {a : Nat} (h : a < s.len) :
    ∃ b, s.byteAt a = some b := by
  rw [State.byteAt, if_pos h]
  exact Option.isSome_iff_exists.mp (hl a h)

/-- A successful read of one byte more is a byte and a shorter read. -/
theorem memRead_succ {s : State} {off n v : Nat} (h : s.memRead off (n + 1) = some v) :
    ∃ b u, s.byteAt off = some b ∧ s.memRead (off + 1) n = some u ∧ v = b.toNat + 256 * u := by
  simp only [State.memRead] at h
  split at h
  · next b u hb hu => exact ⟨b, u, hb, hu, (Option.some.inj h).symm⟩
  · simp at h

theorem memRead_succ_of {s : State} {off n u : Nat} {b : Byte} (hb : s.byteAt off = some b)
    (hu : s.memRead (off + 1) n = some u) : s.memRead off (n + 1) = some (b.toNat + 256 * u) := by
  simp only [State.memRead, hb, hu]

theorem memRead_one {s : State} {off : Nat} {b : Byte} (h : s.byteAt off = some b) :
    s.memRead off 1 = some b.toNat := by
  simp [State.memRead, h]

/-- A read of a loaded range succeeds, with a value below `2 ^ (8 * n)`. -/
theorem memRead_isSome {s : State} (hl : ∀ a < s.len, (Memory.read s.buf a).isSome = true) (n off : Nat)
    (h : off + n ≤ s.len) : ∃ v, s.memRead off n = some v := by
  induction n generalizing off with
  | zero => exact ⟨0, rfl⟩
  | succ n ih =>
    obtain ⟨b, hb⟩ := byteAt_of_loaded hl (show off < s.len by omega)
    obtain ⟨u, hu⟩ := ih (off + 1) (by omega)
    exact ⟨_, memRead_succ_of hb hu⟩

theorem memRead_lt {s : State} {n off v : Nat} (h : s.memRead off n = some v) : v < 2 ^ (8 * n) := by
  induction n generalizing off v with
  | zero => simp only [State.memRead, Option.some.injEq] at h; subst h; simp
  | succ n ih =>
    obtain ⟨b, u, -, hu, rfl⟩ := memRead_succ h
    have := ih hu
    have hb := b.isLt
    rw [show 8 * (n + 1) = 8 * n + 8 by ring, Nat.pow_add]
    omega

/-! ### The effect of a recognized form -/

/-- If a form answers a next state, it was enabled, and it either raised a truncation or committed its record. -/
theorem retire_next {n : InsnLen} {x : Instr} {s t : State} (h : retire n x s = .next t) :
    s.Enabled ∧ ((s.avail < n.bytes ∧ t = raiseTruncated n s) ∨
      (n.bytes ≤ s.avail ∧ ∃ w, s.memRead s.cursor n.bytes = some w ∧
        t = commit (.insn s.cursor n (BitVec.ofNat 32 w) x) n.bytes s)) := by
  unfold retire at h
  split at h
  · next he =>
    refine ⟨he, ?_⟩
    split at h
    · next ha => injection h with h; exact .inl ⟨ha, h.symm⟩
    · next ha =>
      split at h
      · next w hw => injection h with h; exact .inr ⟨by omega, w, hw, h.symm⟩
      · simp at h
  · simp at h

/-- A form completes where it is enabled and its bytes are there. -/
theorem retire_of {n : InsnLen} {x : Instr} {s : State} {w : Nat} (he : s.Enabled) (ha : n.bytes ≤ s.avail)
    (hw : s.memRead s.cursor n.bytes = some w) :
    retire n x s = .next (commit (.insn s.cursor n (BitVec.ofNat 32 w) x) n.bytes s) := by
  rw [retire, if_pos he, if_neg (by omega), hw]

/-- A form raises a truncation where it is enabled and its bytes are not all there. -/
theorem retire_truncated {n : InsnLen} {x : Instr} {s : State} (he : s.Enabled) (ha : s.avail < n.bytes) :
    retire n x s = .next (raiseTruncated n s) := by
  rw [retire, if_pos he, if_pos ha]

/-! ### The decode core -/

/-- The possible answers of the core once a length is classified. -/
theorem decodeSized_cases {s : State} {n : InsnLen} {i avail : Nat} {r : Record} {adv : Nat}
    (h : decodeSized s n i avail = .ok (r, adv)) :
    (avail < n.bytes ∧ r = .truncated i n avail ∧ adv = 0) ∨
    (n.bytes ≤ avail ∧ adv = n.bytes ∧ ∃ w, s.memRead i n.bytes = some w ∧
      ((∃ x, routeWord n (BitVec.ofNat 32 w) = some x ∧ r = .insn i n (BitVec.ofNat 32 w) x) ∨
       (routeWord n (BitVec.ofNat 32 w) = none ∧ r = .unknown i n (BitVec.ofNat 32 w)))) := by
  unfold decodeSized at h
  split at h
  · next ha => simp only [Except.ok.injEq, Prod.mk.injEq] at h; exact .inl ⟨ha, h.1.symm, h.2.symm⟩
  · next ha =>
    split at h
    · simp at h
    · next w hw =>
      split at h
      · next x hx =>
        simp only [Except.ok.injEq, Prod.mk.injEq] at h
        exact .inr ⟨by omega, h.2.symm, w, hw, .inl ⟨x, hx, h.1.symm⟩⟩
      · next hx =>
        simp only [Except.ok.injEq, Prod.mk.injEq] at h
        exact .inr ⟨by omega, h.2.symm, w, hw, .inr ⟨hx, h.1.symm⟩⟩

/-- The possible answers of the core: an unsupported length, or a classified length. -/
theorem decodeCore_cases {s : State} {i avail : Nat} {p : Record × Nat} (h : decodeCore s i avail = .ok p) :
    ∃ b0, s.byteAt i = some b0 ∧
      ((classify b0 = .bad ∧ p = (.badLength i b0, 2)) ∨
       (classify b0 = .len2 ∧ decodeSized s .two i avail = .ok p) ∨
       (classify b0 = .len4 ∧ decodeSized s .four i avail = .ok p)) := by
  unfold decodeCore at h
  split at h
  · simp at h
  · next v hv =>
    obtain ⟨b, u, hb, hu, rfl⟩ := memRead_succ hv
    simp only [State.memRead, Option.some.injEq] at hu
    subst hu
    refine ⟨b, hb, ?_⟩
    simp only [Nat.mul_zero, Nat.add_zero, BitVec.ofNat_toNat, BitVec.setWidth_eq] at h
    split at h
    · next hc => simp only [Except.ok.injEq] at h; exact .inl ⟨hc, h.symm⟩
    · next hc => exact .inr (.inl ⟨hc, h⟩)
    · next hc => exact .inr (.inr ⟨hc, h⟩)

/-- The core at a byte that is there. -/
theorem decodeCore_of_byte {s : State} {i : Nat} {b0 : Byte} (avail : Nat) (h : s.byteAt i = some b0) :
    decodeCore s i avail =
      match classify b0 with
      | .bad => .ok (.badLength i b0, 2)
      | .len2 => decodeSized s .two i avail
      | .len4 => decodeSized s .four i avail := by
  cases hc : classify b0 <;> simp [decodeCore, memRead_one h, hc]

end Sys2Proof.Machine
end

