-- ==== Sys2Proof/Laws/PerInstr.lean ====
section
/-! SUPPORT. A fact about each instruction as syntax: its encoded bytes are as many as its length. -/

namespace Sys2Proof.Laws.EncodedLength

/-- The encoding of the instruction takes exactly the bytes of its length (00_scope.md R2, R13). -/
def Statement (i : Instr) : Prop := (encode i).toBytes.length = i.length.bytes

theorem cAddi : Statement .cAddi := rfl
theorem cLi (rd : RegIndex) (imm : BitVec 6) : Statement (.cLi rd imm) := rfl
theorem cMv (rd rs : RegIndex) : Statement (.cMv rd rs) := rfl
theorem addi (rd rs1 : RegIndex) (imm : Int) : Statement (.addi rd rs1 imm) := rfl
theorem sw (rs2 rs1 : RegIndex) (imm : Int) : Statement (.sw rs2 rs1 imm) := rfl
theorem lw (rd rs1 : RegIndex) (imm : Int) : Statement (.lw rd rs1 imm) := rfl
theorem bne (rs1 rs2 : RegIndex) (imm : Int) : Statement (.bne rs1 rs2 imm) := rfl
theorem blt (rs1 rs2 : RegIndex) (imm : Int) : Statement (.blt rs1 rs2 imm) := rfl
theorem jal (rd : RegIndex) (imm : Int) : Statement (.jal rd imm) := rfl
theorem lui (rd : RegIndex) (imm : Int) : Statement (.lui rd imm) := rfl
theorem csrrs (rd : RegIndex) (csr : CsrAddr) (rs1 : RegIndex) : Statement (.csrrs rd csr rs1) := rfl
theorem wfi : Statement .wfi := rfl
theorem ecall : Statement .ecall := rfl

end Sys2Proof.Laws.EncodedLength
end

