-- ==== Sys2Proof/Laws/Step.lean ====
section
/-! SUPPORT. What one step can do, said once: every invariant follows from `step_cases`. -/

namespace Sys2Proof.Machine

/-- Every meaning is the shared effect of a form, at the form's length. -/
theorem exec_eq_retire (x : Instr) (s : State) : exec x s = retire x.length x s := by
  cases x <;> rfl

/-- If a step answers a next state, a step was enabled, the decode core answered a record, and the state is the one of
that record: the effect of a form, the skip of an unsupported length, an unknown word, or a truncation. -/
theorem step_cases {s t : State} (h : step s = .next t) :
    s.Enabled ∧ ∃ r adv, decodeCore s s.cursor s.avail = .ok (r, adv) ∧
      ((∃ off n w x, r = .insn off n w x ∧ exec x s = .next t) ∨
       (∃ off n w, r = .unknown off n w ∧ t = commit r adv s) ∨
       (∃ off b0, r = .badLength off b0 ∧ t = takeBadLength b0 s) ∨
       (∃ off need k, r = .truncated off need k ∧ t = raiseTruncated need s)) := by
  unfold step fetch at h
  split at h
  · simp at h
  · next x hx =>
    split at hx
    · next he =>
      split at hx
      · simp at hx
      · next off n w x' adv hd =>
        injection hx with hx; subst hx
        exact ⟨he, _, _, hd, .inl ⟨_, _, _, _, rfl, h⟩⟩
      · simp at hx
      · simp at hx
      · simp at hx
    · simp at hx
  · next t' ht =>
    injection h with h; subst h
    split at ht
    · next he =>
      split at ht
      · simp at ht
      · simp at ht
      · next hd => injection ht with ht; exact ⟨he, _, _, hd, .inr (.inl ⟨_, _, _, rfl, ht.symm⟩)⟩
      · next hd => injection ht with ht; exact ⟨he, _, _, hd, .inr (.inr (.inl ⟨_, _, rfl, ht.symm⟩))⟩
      · next hd => injection ht with ht; exact ⟨he, _, _, hd, .inr (.inr (.inr ⟨_, _, _, rfl, ht.symm⟩))⟩
    · simp at ht

/-- A step at a recognized form is the form's meaning. -/
theorem step_of_insn {s : State} {off : Nat} {n : InsnLen} {w : Word} {x : Instr} {adv : Nat} (he : s.Enabled)
    (hd : decodeCore s s.cursor s.avail = .ok (.insn off n w x, adv)) : step s = exec x s := by
  simp only [step, fetch, if_pos he, hd]

/-- A step at a word that matches no form. -/
theorem step_of_unknown {s : State} {off : Nat} {n : InsnLen} {w : Word} {adv : Nat} (he : s.Enabled)
    (hd : decodeCore s s.cursor s.avail = .ok (.unknown off n w, adv)) :
    step s = .next (commit (.unknown off n w) adv s) := by
  simp only [step, fetch, if_pos he, hd]

/-- A step at an unsupported length. -/
theorem step_of_badLength {s : State} {off : Nat} {b0 : Byte} {adv : Nat} (he : s.Enabled)
    (hd : decodeCore s s.cursor s.avail = .ok (.badLength off b0, adv)) : step s = .next (takeBadLength b0 s) := by
  simp only [step, fetch, if_pos he, hd]

/-- A step at a truncated word. -/
theorem step_of_truncated {s : State} {off : Nat} {need : InsnLen} {k adv : Nat} (he : s.Enabled)
    (hd : decodeCore s s.cursor s.avail = .ok (.truncated off need k, adv)) :
    step s = .next (raiseTruncated need s) := by
  simp only [step, fetch, if_pos he, hd]

end Sys2Proof.Machine
end

