-- ==== Sys2Proof/Tests/Slice0.lean ====
section
/-! SUPPORT. Tests of the model, each against a value of the spec (95_test_vectors.md unless a comment says otherwise), and
for every statement with hypotheses a witness that meets them. -/

open Sys2Proof Sys2Proof.Machine Sys2Proof.Claims

namespace Sys2Proof.Tests

/-! ### Helpers -/

/-- The next state, if there is one. -/
def nextState : Host.Outcome State Fault Refusal → Option State
  | .next t => some t
  | .fault _ => none
  | .refused _ => none

/-- The fault, if there is one. -/
def faultOf : Host.Outcome State Fault Refusal → Option Fault
  | .next _ => none
  | .fault f => some f
  | .refused _ => none

/-- The refusal, if there is one. -/
def refusalOf : Host.Outcome State Fault Refusal → Option Refusal
  | .next _ => none
  | .fault _ => none
  | .refused r => some r

/-- What a test looks at: the records, the cursor and the status. -/
def view (o : Host.Outcome State Fault Refusal) : Option (List Record × Nat × Status) :=
  (nextState o).map fun t => (t.out, t.cursor, t.status)

/-- One step at the start of a scan of these bytes. -/
def first (bytes : List Byte) : Option (List Record × Nat × Status) := view (step (launch bytes))

/-- The state after the first step. -/
def second (bytes : List Byte) : State := (nextState (step (launch bytes))).getD State.reset

/-- A state that meets the hypotheses of EmitsForm and EmitsUnknown for a word: a buffer that starts with these bytes. -/
abbrev Holds (n : InsnLen) (w : Word) (bytes : List Byte) : Prop :=
  (launch bytes).Enabled ∧ (launch bytes).memRead (launch bytes).cursor n.bytes = some w.toNat

/-! ### WellFormed: an ill-formed term for each check is refused, and its neighbour is not (10_state.md R27; R121, R122) -/

theorem test_wf_cLi_rd : (Instr.cLi 0 5).wellFormed = false ∧ (Instr.cLi 1 63).wellFormed = true := by decide
theorem test_wf_cMv : (Instr.cMv 0 1).wellFormed = false ∧ (Instr.cMv 1 0).wellFormed = false ∧
    (Instr.cMv 1 1).wellFormed = true := by decide
theorem test_wf_addi : (Instr.addi 0 0 (-2049)).wellFormed = false ∧ (Instr.addi 0 0 2048).wellFormed = false ∧
    (Instr.addi 0 0 (-2048)).wellFormed = true ∧ (Instr.addi 0 0 2047).wellFormed = true := by decide
theorem test_wf_sw : (Instr.sw 0 0 (-2049)).wellFormed = false ∧ (Instr.sw 0 0 2048).wellFormed = false ∧
    (Instr.sw 0 0 (-2048)).wellFormed = true ∧ (Instr.sw 0 0 2047).wellFormed = true := by decide
theorem test_wf_lw : (Instr.lw 0 0 (-2049)).wellFormed = false ∧ (Instr.lw 0 0 2048).wellFormed = false ∧
    (Instr.lw 0 0 (-2048)).wellFormed = true ∧ (Instr.lw 0 0 2047).wellFormed = true := by decide
theorem test_wf_bne : (Instr.bne 0 0 (-4098)).wellFormed = false ∧ (Instr.bne 0 0 4096).wellFormed = false ∧
    (Instr.bne 0 0 7).wellFormed = false ∧ (Instr.bne 0 0 (-4096)).wellFormed = true ∧
    (Instr.bne 0 0 4094).wellFormed = true := by decide
theorem test_wf_blt : (Instr.blt 0 0 (-4098)).wellFormed = false ∧ (Instr.blt 0 0 4096).wellFormed = false ∧
    (Instr.blt 0 0 7).wellFormed = false ∧ (Instr.blt 0 0 (-4096)).wellFormed = true ∧
    (Instr.blt 0 0 4094).wellFormed = true := by decide
theorem test_wf_jal : (Instr.jal 0 (-1048578)).wellFormed = false ∧ (Instr.jal 0 1048576).wellFormed = false ∧
    (Instr.jal 0 7).wellFormed = false ∧ (Instr.jal 0 (-1048576)).wellFormed = true ∧
    (Instr.jal 0 1048574).wellFormed = true := by decide
theorem test_wf_lui : (Instr.lui 0 (-524289)).wellFormed = false ∧ (Instr.lui 0 524288).wellFormed = false ∧
    (Instr.lui 0 (-524288)).wellFormed = true ∧ (Instr.lui 0 524287).wellFormed = true := by decide

/-! ### Fields and sign extension (95_test_vectors.md S2, S3, S11, S12) -/

theorem test_bits : bits 0xffffffff#32 31 0 = 0xffffffff ∧ bits 0b1010#4 3 2 = 0b10 ∧ bits 0x00812503#32 14 12 = 2 ∧
    bits 0x00812503#32 6 0 = 0x03 := by decide
theorem test_signExtend : signExtend 0x800 12 = -2048 ∧ signExtend 0x7ff 12 = 2047 ∧ signExtend 0xff0 12 = -16 ∧
    signExtend 1 1 = -1 ∧ signExtend 0 1 = 0 ∧ signExtend 0x80000000 32 = -2147483648 ∧
    signExtend 0x7fffffff 32 = 2147483647 := by decide

/-! ### The classifier (95_test_vectors.md §2.1) -/

theorem test_classify : ([0x00#8, 0x01#8, 0x02#8, 0xfe#8].all fun b => classify b == .len2) = true ∧
    ([0x03#8, 0x13#8, 0x17#8, 0x1b#8, 0x23#8, 0x6f#8, 0x73#8].all fun b => classify b == .len4) = true ∧
    ([0x1f#8, 0x3f#8, 0x5f#8, 0x7f#8, 0x9f#8, 0xbf#8, 0xdf#8, 0xff#8].all fun b => classify b == .bad) = true := by
  decide

/-! ### Decoding: each word is written field by field from the format tables of 30_encoding.md -/

/-- CI (R72): funct3 000, imm[5] 0, rd 10, imm[4:0] 1, op 01. -/
theorem test_decode_cAddi : decodeC (0b000#3 ++ 0b0#1 ++ 0b01010#5 ++ 0b00001#5 ++ 0b01#2) = some .cAddi := by decide
/-- CI (R72): funct3 010, imm[5] 1, rd 10, imm[4:0] 31, op 01. -/
theorem test_decode_cLi :
    decodeC (0b010#3 ++ 0b1#1 ++ 0b01010#5 ++ 0b11111#5 ++ 0b01#2) = some (.cLi 10 63) := by decide
/-- CR (R73): funct3 100, bit 12 zero, rd 10, rs 20, op 10. -/
theorem test_decode_cMv :
    decodeC (0b100#3 ++ 0b0#1 ++ 0b01010#5 ++ 0b10100#5 ++ 0b10#2) = some (.cMv 10 20) := by decide
/-- I (R67): imm -16, rs1 2, funct3 000, rd 1, opcode 0010011. -/
theorem test_decode_addi :
    decodeS (0b111111110000#12 ++ 0b00010#5 ++ 0b000#3 ++ 0b00001#5 ++ 0b0010011#7) = some (.addi 1 2 (-16)) := by decide
/-- S (R68): imm[11:5] 1111111, rs2 10, rs1 8, funct3 010, imm[4:0] 11100, opcode 0100011. -/
theorem test_decode_sw :
    decodeS (0b1111111#7 ++ 0b01010#5 ++ 0b01000#5 ++ 0b010#3 ++ 0b11100#5 ++ 0b0100011#7) = some (.sw 10 8 (-4)) := by
  decide
/-- I (R67): imm 8, rs1 2, funct3 010, rd 10, opcode 0000011. -/
theorem test_decode_lw :
    decodeS (0b000000001000#12 ++ 0b00010#5 ++ 0b010#3 ++ 0b01010#5 ++ 0b0000011#7) = some (.lw 10 2 8) := by decide
/-- B (R69): imm[12] 0, imm[10:5] 0, rs2 3, rs1 10, funct3 001, imm[4:1] 0100, imm[11] 1, opcode 1100011: 2048 + 8. -/
theorem test_decode_bne :
    decodeS (0b0#1 ++ 0b000000#6 ++ 0b00011#5 ++ 0b01010#5 ++ 0b001#3 ++ 0b0100#4 ++ 0b1#1 ++ 0b1100011#7) =
      some (.bne 10 3 2056) := by decide
/-- B (R69): imm -4: imm[12] 1, imm[10:5] 111111, rs2 11, rs1 10, funct3 100, imm[4:1] 1110, imm[11] 1. -/
theorem test_decode_blt :
    decodeS (0b1#1 ++ 0b111111#6 ++ 0b01011#5 ++ 0b01010#5 ++ 0b100#3 ++ 0b1110#4 ++ 0b1#1 ++ 0b1100011#7) =
      some (.blt 10 11 (-4)) := by decide
/-- J (R71): imm[20] 0, imm[10:1] 8, imm[11] 1, imm[19:12] 00000001, rd 1, opcode 1101111: 4096 + 2048 + 16. -/
theorem test_decode_jal :
    decodeS (0b0#1 ++ 0b0000001000#10 ++ 0b1#1 ++ 0b00000001#8 ++ 0b00001#5 ++ 0b1101111#7) = some (.jal 1 6160) := by
  decide
/-- U (R70): imm 0x80000, rd 10, opcode 0110111: the 20-bit field as a signed number. -/
theorem test_decode_lui :
    decodeS (0b10000000000000000000#20 ++ 0b01010#5 ++ 0b0110111#7) = some (.lui 10 (-524288)) := by decide
/-- I (R67): csr 0x300, rs1 11, funct3 010, rd 10, opcode 1110011. -/
theorem test_decode_csrrs :
    decodeS (0b001100000000#12 ++ 0b01011#5 ++ 0b010#3 ++ 0b01010#5 ++ 0b1110011#7) = some (.csrrs 10 0x300 11) := by
  decide
/-- The exact word of R161, and the one that differs in rd. -/
theorem test_decode_wfi : decodeS 0x10500073#32 = some .wfi ∧ decodeS 0x10500573#32 = none := by decide
/-- The exact word of R162, and the one that differs in rd. -/
theorem test_decode_ecall : decodeS 0x00000073#32 = some .ecall ∧ decodeS 0x00000873#32 = none := by decide

/-- Compressed words that no form matches (§2.2). -/
theorem test_unknown_compressed :
    ([0x4001#16, 0x2001#16, 0x802e#16, 0x8502#16, 0x952e#16, 0x4502#16, 0x0000#16].all fun w => decodeC w == none) = true := by
  decide
/-- Standard words that no form matches (§2.3 to §2.6). -/
theorem test_unknown_standard :
    ([0x00151513#32, 0x00a10023#32, 0x00010503#32, 0x00050463#32, 0x00b55463#32, 0x00000517#32, 0x30046073#32,
      0x30051073#32, 0x00100073#32, 0x30200073#32, 0x10200073#32, 0x0000000f#32, 0x00b50533#32].all
        fun w => decodeS w == none) = true := by decide

/-- The bytes lie little-endian in the buffer (20_memory.md R42), and a byte decoder refuses by name. -/
theorem test_decodeBytes : decodeBytes [0x13#8, 0x05#8, 0x50#8, 0x00#8] = .insn .four 0x00500513#32 (.addi 10 0 5) ∧
    decodeBytes [0x00#8, 0x00#8] = .unknown .two 0#32 ∧ decodeBytes [0xff#8] = .badLength 0xff#8 ∧
    decodeBytes [0x13#8, 0x05#8] = .truncated .four 2 ∧ decodeBytes [] = .empty := by decide

/-- The table's numbering: a 16-bit row and a 32-bit row. -/
theorem test_decodeTableWord : decodeTableWord 16 0x852e = some (.cMv 10 11) ∧
    decodeTableWord 32 0x00a12623 = some (.sw 10 2 12) ∧ decodeTableWord 32 0x00b50533 = none := by decide

/-! ### The encoder (words of §2) -/

theorem test_encode_compressed : encode (.cLi 10 32) = .half 0x5501#16 ∧ encode (.cMv 10 20) = .half 0x8552#16 := by decide
theorem test_encode_standard : encode (.addi 2 2 (-16)) = .word 0xff010113#32 ∧
    encode (.sw 10 8 (-4)) = .word 0xfea42e23#32 ∧ encode (.lw 1 8 (-4)) = .word 0xffc42083#32 ∧
    encode (.lui 10 (-1)) = .word 0xfffff537#32 ∧ encode (.csrrs 10 0x300 11) = .word 0x3005a573#32 := by decide
theorem test_encode_offsets : encode (.bne 0 0 4094) = .word 0x7e001fe3#32 ∧ encode (.blt 10 11 (-4)) = .word 0xfeb54ee3#32 ∧
    encode (.jal 0 (-8)) = .word 0xff9ff06f#32 ∧ encode (.jal 0 1048574) = .word 0x7ffff06f#32 := by decide

/-! ### One step on a small buffer, per form: a further byte stands behind the instruction -/

theorem test_step_cAddi : first [0x7d#8, 0x15#8, 0x00#8] = some ([.insn 0 .two 0x157d#32 .cAddi], 2, .running) := by decide
theorem test_step_cLi : first [0x01#8, 0x55#8, 0x00#8] = some ([.insn 0 .two 0x5501#32 (.cLi 10 32)], 2, .running) := by decide
theorem test_step_cMv : first [0x52#8, 0x85#8, 0x00#8] = some ([.insn 0 .two 0x8552#32 (.cMv 10 20)], 2, .running) := by decide
theorem test_step_addi : first [0x93#8, 0x00#8, 0x00#8, 0x80#8, 0x00#8] =
    some ([.insn 0 .four 0x80000093#32 (.addi 1 0 (-2048))], 4, .running) := by decide
theorem test_step_sw : first [0xa3#8, 0x2f#8, 0x00#8, 0x7e#8, 0x00#8] =
    some ([.insn 0 .four 0x7e002fa3#32 (.sw 0 0 2047)], 4, .running) := by decide
theorem test_step_lw : first [0x83#8, 0x20#8, 0xc4#8, 0xff#8, 0x00#8] =
    some ([.insn 0 .four 0xffc42083#32 (.lw 1 8 (-4))], 4, .running) := by decide
theorem test_step_bne : first [0x63#8, 0x10#8, 0x00#8, 0x80#8, 0x00#8] =
    some ([.insn 0 .four 0x80001063#32 (.bne 0 0 (-4096))], 4, .running) := by decide
theorem test_step_blt : first [0xe3#8, 0x4e#8, 0xb5#8, 0xfe#8, 0x00#8] =
    some ([.insn 0 .four 0xfeb54ee3#32 (.blt 10 11 (-4))], 4, .running) := by decide
theorem test_step_jal : first [0x6f#8, 0x00#8, 0x00#8, 0x80#8, 0x00#8] =
    some ([.insn 0 .four 0x8000006f#32 (.jal 0 (-1048576))], 4, .running) := by decide
theorem test_step_lui : first [0x37#8, 0xf5#8, 0xff#8, 0x7f#8, 0x00#8] =
    some ([.insn 0 .four 0x7ffff537#32 (.lui 10 524287)], 4, .running) := by decide
theorem test_step_csrrs : first [0x73#8, 0x20#8, 0xf0#8, 0xff#8, 0x00#8] =
    some ([.insn 0 .four 0xfff02073#32 (.csrrs 0 0xfff 0)], 4, .running) := by decide
/-- `wfi` neither stops nor suspends the scan (program P1). -/
theorem test_step_wfi : first [0x73#8, 0x00#8, 0x50#8, 0x10#8, 0x00#8] =
    some ([.insn 0 .four 0x10500073#32 .wfi], 4, .running) := by decide
theorem test_step_ecall : first [0x73#8, 0x00#8, 0x00#8, 0x00#8, 0x00#8] =
    some ([.insn 0 .four 0x00000073#32 .ecall], 4, .running) := by decide

/-! ### The other records (§2.7) and the end of a scan -/

theorem test_step_unknown : first [0x33#8, 0x05#8, 0xb5#8, 0x00#8] = some ([.unknown 0 .four 0x00b50533#32], 4, .done) := by decide
theorem test_step_badLength : first [0xff#8] = some ([.badLength 0 0xff#8], 2, .done) ∧
    first [0x1f#8, 0x00#8] = some ([.badLength 0 0x1f#8], 2, .done) := by decide
theorem test_step_truncated : first [0x01#8] = some ([.truncated 0 .two 1], 0, .truncated) ∧
    first [0x13#8, 0x05#8, 0x50#8] = some ([.truncated 0 .four 3], 0, .truncated) := by decide
/-- Program P4, its second step. -/
theorem test_step_at_cursor : view (step (second [0x15#8, 0x45#8, 0x73#8, 0x00#8, 0x50#8])) =
    some ([.insn 0 .two 0x4515#32 (.cLi 10 5), .truncated 2 .four 3], 2, .truncated) := by decide
/-- Program P5: no step is enabled (R33, R106). -/
theorem test_empty : (launch []).status = .done ∧ faultOf (step (launch [])) = some .noStepEnabled := by decide

/-- A 16-bit and a 32-bit instruction placed where step fetches run as the first instruction after reset. -/
theorem test_withFetchWord : view (step (State.reset.withFetchWord 16 0x4515)) =
      some ([.insn 0 .two 0x4515#32 (.cLi 10 5)], 2, .running) ∧
    view (step (State.reset.withFetchWord 32 0x10500073)) = some ([.insn 0 .four 0x10500073#32 .wfi], 4, .done) := by decide

/-! ### The host (10_state.md R35; 20_memory.md R41, R48) -/

theorem test_host : refusalOf (hostLoad 1024 [0x01#8] (launch [0x13#8])) = some .bufferWriteDuringScan ∧
    refusalOf (hostLoad 1 [0x01#8, 0x00#8] State.reset) = some .bufferTooLong ∧
    (nextState (hostLoad 2 [0x01#8, 0x00#8] State.reset)).map (fun t => (t.buf, t.len)) =
      some ([(0, 0x01#8), (1, 0x00#8)], 2) := by decide

/-! ### The renderer (§2.8), where the spec fixes the text -/

theorem test_render : render (.insn 0 .two 0x4515#32 (.cLi 10 5)) = ("    4515  c.li a0, 5\n", "") ∧
    render (.insn 0 .four 0x00812503#32 (.lw 10 2 8)) = ("00812503  lw a0 8(sp)\n", "") ∧
    render (.insn 0 .four 0x10500073#32 .wfi) = ("10500073  wfi\n", "") ∧
    render (.unknown 0 .two 0#32) = ("    0000\n", "") := by decide
theorem test_render_immediates : insnText 0xfea42e23#32 (.sw 10 8 (-4)) = "sw a0, -4(s0)" ∧
    insnText 0x80000537#32 (.lui 10 (-524288)) = "lui a0, 0xfff80000" ∧ insnText 0x00000037#32 (.lui 0 0) = "lui zero, 0x0" ∧
    insnText 0x8000006f#32 (.jal 0 (-1048576)) = "jal zero, -1048576" := by decide

/-! ### The ports (10_state.md R36 to R38): the driven ports of c.mv and of a truncation -/

theorem test_ports (any : Ports) : (corePorts 0x0000852e#32 2 any).kind = 0 ∧ (corePorts 0x0000852e#32 2 any).tag = 2 ∧
    (corePorts 0x0000852e#32 2 any).rd = 10 ∧ (corePorts 0x0000852e#32 2 any).rs2 = 11 ∧
    (corePorts 0x0000852e#32 2 any).adv = 2 := ⟨rfl, rfl, rfl, rfl, rfl⟩

/-! ### Witnesses: for every statement with hypotheses, values that meet them, at the boundaries of each clause -/

theorem test_witness_FieldBitsAreWordBits : ((0 : Nat) ≤ 31 ∧ 31 < 32 ∧ 31 ≤ 31) ∧ ((15 : Nat) ≤ 15 ∧ 15 < 16 ∧ 15 ≤ 31) := by
  decide
theorem test_witness_SignExtendIsTwosComplement : (1 ≤ 1 ∧ 1 ≤ 32 ∧ 1 < 2 ^ 1 ∧ (1 : Nat).testBit (1 - 1) = true) ∧
    (1 ≤ 32 ∧ 32 ≤ 32 ∧ 0x7fffffff < 2 ^ 32 ∧ (0x7fffffff : Nat).testBit (32 - 1) = false) := by decide
theorem test_witness_ClassifierFollowsItsRule : 0xfe#8 &&& 0b11 ≠ 0b11 ∧
    (0x1b#8 &&& 0b11 = 0b11 ∧ 0x1b#8 &&& 0b11100 ≠ 0b11100) ∧ (0x1f#8 &&& 0b11 = 0b11 ∧ 0x1f#8 &&& 0b11100 = 0b11100) ∧
    (launch [0x1f#8]).Enabled ∧ (launch [0x1f#8]).byteAt (launch [0x1f#8]).cursor = some 0x1f#8 := by decide
theorem test_witness_ClassifierReadsFiveBits : (0x13#8).extractLsb' 0 5 = (0xf3#8).extractLsb' 0 5 := by decide
/-- A compressed word in the last two bytes of the buffer; a standard word, read at both widths. -/
theorem test_witness_ClassFixesLowWordBits :
    ((launch [0x15#8, 0x45#8]).byteAt 0 = some 0x15#8 ∧ (launch [0x15#8, 0x45#8]).memRead 0 2 = some 0x4515 ∧
      classify 0x15#8 = .len2) ∧
    (launch [0x13#8, 0x05#8, 0x50#8, 0x00#8]).byteAt 0 = some 0x13#8 ∧
      (launch [0x13#8, 0x05#8, 0x50#8, 0x00#8]).memRead 0 2 = some 0x0513 ∧
      (launch [0x13#8, 0x05#8, 0x50#8, 0x00#8]).memRead 0 4 = some 0x00500513 ∧ classify 0x13#8 = .len4 := by decide
theorem test_witness_MemReadIsLittleEndian :
    (∀ k < 2, (launch [0x15#8, 0x45#8]).byteAt (0 + k) = some ((fun j => if j = 0 then 0x15#8 else 0x45#8) k)) ∧
    0 < 2 ∧ (launch [0x15#8, 0x45#8]).memRead 0 2 = some 0x4515 := by decide
/-- Two buffers that differ behind the instruction; two that differ behind an unsupported first byte. -/
theorem test_witness_DecodeReadsOnlyTheInstruction :
    ((launch [0x15#8, 0x45#8, 0x01#8]).len = (launch [0x15#8, 0x45#8, 0x02#8]).len ∧
      (launch [0x15#8, 0x45#8, 0x01#8]).byteAt 0 = some 0x15#8 ∧ (launch [0x15#8, 0x45#8, 0x02#8]).byteAt 0 = some 0x15#8 ∧
      ∀ k < min (3 - 0) (readWidth (classify 0x15#8)),
        (launch [0x15#8, 0x45#8, 0x01#8]).byteAt (0 + k) = (launch [0x15#8, 0x45#8, 0x02#8]).byteAt (0 + k)) ∧
    (launch [0x1f#8, 0x01#8]).len = (launch [0x1f#8, 0x02#8]).len ∧
      (launch [0x1f#8, 0x01#8]).byteAt 0 = some 0x1f#8 ∧ (launch [0x1f#8, 0x02#8]).byteAt 0 = some 0x1f#8 ∧
      ∀ k < min (2 - 0) (readWidth (classify 0x1f#8)),
        (launch [0x1f#8, 0x01#8]).byteAt (0 + k) = (launch [0x1f#8, 0x02#8]).byteAt (0 + k) := by decide
theorem test_witness_CompressedOpcodeMap :
    ((0x157d#16).extractLsb' 0 2 = 0b01#2 ∧ (0x157d#16).extractLsb' 13 3 = 0b000#3) ∧
    ((0x557d#16).extractLsb' 0 2 = 0b01#2 ∧ (0x557d#16).extractLsb' 13 3 = 0b010#3 ∧ (0x557d#16).extractLsb' 7 5 ≠ 0) ∧
    ((0x852e#16).extractLsb' 0 2 = 0b10#2 ∧ (0x852e#16).extractLsb' 13 3 = 0b100#3 ∧ (0x852e#16).extractLsb' 2 5 ≠ 0 ∧
      (0x852e#16).extractLsb' 7 5 ≠ 0 ∧ (0x852e#16).extractLsb' 12 1 = 0) ∧
    (¬((0x4001#16).extractLsb' 0 2 = 0b01#2 ∧ (0x4001#16).extractLsb' 13 3 = 0b000#3) ∧
      ¬((0x4001#16).extractLsb' 0 2 = 0b01#2 ∧ (0x4001#16).extractLsb' 13 3 = 0b010#3 ∧ (0x4001#16).extractLsb' 7 5 ≠ 0) ∧
      ¬((0x4001#16).extractLsb' 0 2 = 0b10#2 ∧ (0x4001#16).extractLsb' 13 3 = 0b100#3 ∧ (0x4001#16).extractLsb' 2 5 ≠ 0 ∧
        (0x4001#16).extractLsb' 7 5 ≠ 0 ∧ (0x4001#16).extractLsb' 12 1 = 0) ∧
      (0x4001#16).extractLsb' 0 2 ≠ 0b11#2) ∧
    Holds .two ((0x4001#16).setWidth 32) [0x01#8, 0x40#8] := by decide
theorem test_witness_CompressedUnknownSpace : (0x0000#16).extractLsb' 0 2 = 0b00#2 ∧
    ((0x2001#16).extractLsb' 0 2 = 0b01#2 ∧ (0x2001#16).extractLsb' 13 3 ≠ 0b000#3 ∧ (0x2001#16).extractLsb' 13 3 ≠ 0b010#3) ∧
    ((0x4001#16).extractLsb' 0 2 = 0b01#2 ∧ (0x4001#16).extractLsb' 13 3 = 0b010#3 ∧ (0x4001#16).extractLsb' 7 5 = 0) ∧
    ((0x952e#16).extractLsb' 0 2 = 0b10#2 ∧ ¬MatchesCMv 0x952e#16) := by decide
/-- One word for each row of the map. -/
theorem test_witness_StandardOpcodeMap_rows :
    ((0x00500513#32).extractLsb' 0 7 = 0b0010011#7 ∧ (0x00500513#32).extractLsb' 12 3 = 0b000#3) ∧
    ((0xfea42e23#32).extractLsb' 0 7 = 0b0100011#7 ∧ (0xfea42e23#32).extractLsb' 12 3 = 0b010#3) ∧
    ((0x00812503#32).extractLsb' 0 7 = 0b0000011#7 ∧ (0x00812503#32).extractLsb' 12 3 = 0b010#3) ∧
    ((0x00051463#32).extractLsb' 0 7 = 0b1100011#7 ∧ (0x00051463#32).extractLsb' 12 3 = 0b001#3) ∧
    ((0xfeb54ee3#32).extractLsb' 0 7 = 0b1100011#7 ∧ (0xfeb54ee3#32).extractLsb' 12 3 = 0b100#3) ∧
    (0x7ffff06f#32).extractLsb' 0 7 = 0b1101111#7 ∧ (0x12345537#32).extractLsb' 0 7 = 0b0110111#7 ∧
    ((0xfff02073#32).extractLsb' 0 7 = 0b1110011#7 ∧ (0xfff02073#32).extractLsb' 12 3 = 0b010#3) := by decide
/-- A word outside the map: the spec's R-type word. -/
theorem test_witness_StandardOpcodeMap_none :
    (0x00b50533#32).extractLsb' 0 7 ∉ [0b0010011#7, 0b0100011#7, 0b0000011#7, 0b1100011#7, 0b1101111#7, 0b0110111#7,
      0b1110011#7] ∧ 0x00b50533#32 ≠ 0x10500073#32 ∧ 0x00b50533#32 ≠ 0x00000073#32 ∧
    classify ((0x00b50533#32).setWidth 8) = .len4 ∧ Holds .four 0x00b50533#32 [0x33#8, 0x05#8, 0xb5#8, 0x00#8] := by decide
theorem test_witness_StandardUnknownSpace :
    (0x0000000f#32).extractLsb' 0 7 ∉ [0b0010011#7, 0b0100011#7, 0b0000011#7, 0b1100011#7, 0b1101111#7, 0b0110111#7,
      0b1110011#7] ∧
    ((0x00151513#32).extractLsb' 0 7 = 0b0010011#7 ∧ (0x00151513#32).extractLsb' 12 3 ≠ 0b000#3) ∧
    ((0x00a10023#32).extractLsb' 0 7 = 0b0100011#7 ∧ (0x00a10023#32).extractLsb' 12 3 ≠ 0b010#3) ∧
    ((0x00010503#32).extractLsb' 0 7 = 0b0000011#7 ∧ (0x00010503#32).extractLsb' 12 3 ≠ 0b010#3) ∧
    ((0x00b55463#32).extractLsb' 0 7 = 0b1100011#7 ∧ (0x00b55463#32).extractLsb' 12 3 ≠ 0b001#3 ∧
      (0x00b55463#32).extractLsb' 12 3 ≠ 0b100#3) ∧
    ((0x00100073#32).extractLsb' 0 7 = 0b1110011#7 ∧ (0x00100073#32).extractLsb' 12 3 ≠ 0b010#3 ∧
      0x00100073#32 ≠ 0x10500073#32 ∧ 0x00100073#32 ≠ 0x00000073#32) := by decide

/-! Per form: a word of the form in a buffer, and a word of each clause that gives Unknown. -/

theorem test_witness_CAddiFollowsItsRule :
    ((0x0001#16).extractLsb' 0 2 = 0b01#2 ∧ (0x0001#16).extractLsb' 13 3 = 0b000#3) ∧ decodeC 0x0001#16 = some .cAddi ∧
    Holds .two ((0x0001#16).setWidth 32) [0x01#8, 0x00#8] := by decide
theorem test_witness_CLiFollowsItsRule :
    (((0x4515#16).extractLsb' 0 2 = 0b01#2 ∧ (0x4515#16).extractLsb' 13 3 = 0b010#3) ∧ (0x4515#16).extractLsb' 7 5 ≠ 0) ∧
    Holds .two ((0x4515#16).setWidth 32) [0x15#8, 0x45#8] ∧
    (decodeC 0x557d#16 = some (.cLi 10 63) ∧ (0x557d#16).extractLsb' 12 1 = 1) ∧
    (((0x4001#16).extractLsb' 0 2 = 0b01#2 ∧ (0x4001#16).extractLsb' 13 3 = 0b010#3) ∧ (0x4001#16).extractLsb' 7 5 = 0) ∧
    Holds .two ((0x4001#16).setWidth 32) [0x01#8, 0x40#8] := by decide
theorem test_witness_CMvFollowsItsRule :
    (((0x852e#16).extractLsb' 0 2 = 0b10#2 ∧ (0x852e#16).extractLsb' 13 3 = 0b100#3) ∧ (0x852e#16).extractLsb' 2 5 ≠ 0 ∧
      (0x852e#16).extractLsb' 7 5 ≠ 0 ∧ (0x852e#16).extractLsb' 12 1 = 0) ∧
    Holds .two ((0x852e#16).setWidth 32) [0x2e#8, 0x85#8] ∧ decodeC 0x852e#16 = some (.cMv 10 11) ∧
    (((0x8502#16).extractLsb' 0 2 = 0b10#2 ∧ (0x8502#16).extractLsb' 13 3 = 0b100#3) ∧ (0x8502#16).extractLsb' 2 5 = 0) ∧
    ((0x802e#16).extractLsb' 7 5 = 0 ∧ (0x952e#16).extractLsb' 12 1 = 1) ∧
    Holds .two ((0x8502#16).setWidth 32) [0x02#8, 0x85#8] := by decide
theorem test_witness_AddiFollowsItsRule :
    ((0x00500513#32).extractLsb' 0 7 = 0b0010011#7 ∧ (0x00500513#32).extractLsb' 12 3 = 0b000#3) ∧
    decodeS 0x00500513#32 = some (.addi 10 0 5) ∧ Holds .four 0x00500513#32 [0x13#8, 0x05#8, 0x50#8, 0x00#8] ∧
    ((0x00151513#32).extractLsb' 0 7 = 0b0010011#7 ∧ (0x00151513#32).extractLsb' 12 3 ≠ 0b000#3) ∧
    Holds .four 0x00151513#32 [0x13#8, 0x15#8, 0x15#8, 0x00#8] := by decide
theorem test_witness_SwFollowsItsRule :
    ((0xfea42e23#32).extractLsb' 0 7 = 0b0100011#7 ∧ (0xfea42e23#32).extractLsb' 12 3 = 0b010#3) ∧
    (decodeS 0xfea42e23#32 = some (.sw 10 8 (-4)) ∧ (0xfea42e23#32).getLsbD 31 = true) ∧
    Holds .four 0xfea42e23#32 [0x23#8, 0x2e#8, 0xa4#8, 0xfe#8] ∧
    ((0x00a10023#32).extractLsb' 0 7 = 0b0100011#7 ∧ (0x00a10023#32).extractLsb' 12 3 ≠ 0b010#3) ∧
    Holds .four 0x00a10023#32 [0x23#8, 0x00#8, 0xa1#8, 0x00#8] := by decide
theorem test_witness_LwFollowsItsRule :
    ((0x00812503#32).extractLsb' 0 7 = 0b0000011#7 ∧ (0x00812503#32).extractLsb' 12 3 = 0b010#3) ∧
    decodeS 0x00812503#32 = some (.lw 10 2 8) ∧ Holds .four 0x00812503#32 [0x03#8, 0x25#8, 0x81#8, 0x00#8] ∧
    ((0x00010503#32).extractLsb' 0 7 = 0b0000011#7 ∧ (0x00010503#32).extractLsb' 12 3 ≠ 0b010#3) ∧
    Holds .four 0x00010503#32 [0x03#8, 0x05#8, 0x01#8, 0x00#8] := by decide
theorem test_witness_BneFollowsItsRule :
    ((0x00051463#32).extractLsb' 0 7 = 0b1100011#7 ∧ (0x00051463#32).extractLsb' 12 3 = 0b001#3) ∧
    decodeS 0x00051463#32 = some (.bne 10 0 8) ∧ Holds .four 0x00051463#32 [0x63#8, 0x14#8, 0x05#8, 0x00#8] ∧
    ((0x00b55463#32).extractLsb' 0 7 = 0b1100011#7 ∧
      (0x00b55463#32).extractLsb' 12 3 ∈ [0b000#3, 0b101#3, 0b110#3, 0b111#3]) ∧
    Holds .four 0x00b55463#32 [0x63#8, 0x54#8, 0xb5#8, 0x00#8] := by decide
theorem test_witness_BltFollowsItsRule :
    ((0xfeb54ee3#32).extractLsb' 0 7 = 0b1100011#7 ∧ (0xfeb54ee3#32).extractLsb' 12 3 = 0b100#3) ∧
    decodeS 0xfeb54ee3#32 = some (.blt 10 11 (-4)) ∧ Holds .four 0xfeb54ee3#32 [0xe3#8, 0x4e#8, 0xb5#8, 0xfe#8] ∧
    ((0x00050463#32).extractLsb' 0 7 = 0b1100011#7 ∧
      (0x00050463#32).extractLsb' 12 3 ∈ [0b000#3, 0b101#3, 0b110#3, 0b111#3]) ∧
    Holds .four 0x00050463#32 [0x63#8, 0x04#8, 0x05#8, 0x00#8] := by decide
theorem test_witness_JalFollowsItsRule : (0x8000006f#32).extractLsb' 0 7 = 0b1101111#7 ∧
    decodeS 0x8000006f#32 = some (.jal 0 (-1048576)) ∧ Holds .four 0x8000006f#32 [0x6f#8, 0x00#8, 0x00#8, 0x80#8] := by decide
theorem test_witness_LuiFollowsItsRule : (0x12345537#32).extractLsb' 0 7 = 0b0110111#7 ∧
    decodeS 0x12345537#32 = some (.lui 10 74565) ∧ Holds .four 0x12345537#32 [0x37#8, 0x55#8, 0x34#8, 0x12#8] ∧
    (0x00000517#32).extractLsb' 0 7 = 0b0010111#7 ∧ Holds .four 0x00000517#32 [0x17#8, 0x05#8, 0x00#8, 0x00#8] := by decide
theorem test_witness_CsrrsFollowsItsRule :
    ((0xfff02073#32).extractLsb' 0 7 = 0b1110011#7 ∧ (0xfff02073#32).extractLsb' 12 3 = 0b010#3) ∧
    decodeS 0xfff02073#32 = some (.csrrs 0 0xfff 0) ∧ Holds .four 0xfff02073#32 [0x73#8, 0x20#8, 0xf0#8, 0xff#8] ∧
    ((0x30046073#32).extractLsb' 0 7 = 0b1110011#7 ∧
      (0x30046073#32).extractLsb' 12 3 ∈ [0b001#3, 0b011#3, 0b101#3, 0b110#3, 0b111#3]) ∧
    Holds .four 0x30046073#32 [0x73#8, 0x60#8, 0x04#8, 0x30#8] := by decide
theorem test_witness_WfiFollowsItsRule : Holds .four 0x10500073#32 [0x73#8, 0x00#8, 0x50#8, 0x10#8] ∧
    ((0x10500573#32).extractLsb' 0 7 = 0b1110011#7 ∧ (0x10500573#32).extractLsb' 12 3 = 0b000#3 ∧
      0x10500573#32 ≠ 0x10500073#32 ∧ 0x10500573#32 ≠ 0x00000073#32) ∧
    Holds .four 0x10500573#32 [0x73#8, 0x05#8, 0x50#8, 0x10#8] := by decide
theorem test_witness_EcallFollowsItsRule : Holds .four 0x00000073#32 [0x73#8, 0x00#8, 0x00#8, 0x00#8] ∧
    ((0x00100073#32).extractLsb' 0 7 = 0b1110011#7 ∧ (0x00100073#32).extractLsb' 12 3 = 0b000#3 ∧
      0x00100073#32 ≠ 0x10500073#32 ∧ 0x00100073#32 ≠ 0x00000073#32) ∧
    Holds .four 0x00100073#32 [0x73#8, 0x00#8, 0x10#8, 0x00#8] := by decide

/-! Completion, frame and step. -/

/-- Exactly 4 bytes left: the hypotheses of Completes at their boundary. -/
theorem test_witness_Completes_four : (launch [0x73#8, 0x00#8, 0x50#8, 0x10#8]).Enabled ∧
    (launch [0x73#8, 0x00#8, 0x50#8, 0x10#8]).Loaded ∧
    (launch [0x73#8, 0x00#8, 0x50#8, 0x10#8]).cursor + InsnLen.four.bytes ≤ (launch [0x73#8, 0x00#8, 0x50#8, 0x10#8]).len := by
  decide
theorem test_witness_ControlTransferKeepsScanLinear :
    (nextState (exec (.jal 0 (-8)) (launch [0x6f#8, 0xf0#8, 0x9f#8, 0xff#8]))).map State.cursor = some 4 := by decide
theorem test_witness_SystemFormsHaveNoEffect :
    (nextState (exec .ecall (launch [0x73#8, 0x00#8, 0x00#8, 0x00#8]))).map State.cursor = some 4 := by decide
theorem test_witness_IntegerMemoryUpperFormsComplete :
    (nextState (exec (.lui 0 0) (launch [0x37#8, 0x00#8, 0x00#8, 0x00#8]))).map State.cursor = some 4 := by decide
/-- Exactly 2 bytes left. -/
theorem test_witness_CompressedFormsComplete : (launch [0x15#8, 0x45#8]).Enabled ∧ (launch [0x15#8, 0x45#8]).Loaded ∧
    (launch [0x15#8, 0x45#8]).cursor + InsnLen.two.bytes ≤ (launch [0x15#8, 0x45#8]).len := by decide
theorem test_witness_ShortBufferTruncatesEveryForm :
    ((launch [0x15#8]).Enabled ∧ (launch [0x15#8]).len - (launch [0x15#8]).cursor < (Instr.cLi 10 5).length.bytes) ∧
    (launch [0x73#8, 0x00#8, 0x50#8]).Enabled ∧
      (launch [0x73#8, 0x00#8, 0x50#8]).len - (launch [0x73#8, 0x00#8, 0x50#8]).cursor < Instr.wfi.length.bytes := by decide
theorem test_witness_ExecFrame : (nextState (exec (.cMv 10 11) (launch [0x2e#8, 0x85#8]))).isSome = true ∧
    (nextState (exec (.cMv 10 11) (launch [0x2e#8]))).map State.status = some .truncated := by decide
theorem test_witness_StepRunsDecodedInstruction : (launch [0x2e#8, 0x85#8]).Enabled ∧
    (launch [0x2e#8, 0x85#8]).byteAt 0 = some 0x2e#8 ∧ (launch [0x2e#8, 0x85#8]).byteAt 1 = some 0x85#8 ∧
    decodeBytes [0x2e#8, 0x85#8] = .insn .two 0x852e#32 (.cMv 10 11) := by decide

/-! The scan: a step of each kind of record. -/

theorem test_witness_CursorAdvancesByRecord :
    first [0x15#8, 0x45#8] = some ([.insn 0 .two 0x4515#32 (.cLi 10 5)], 2, .done) ∧
    first [0x01#8, 0x40#8] = some ([.unknown 0 .two 0x4001#32], 2, .done) ∧
    first [0x73#8, 0x00#8, 0x00#8, 0x00#8] = some ([.insn 0 .four 0x73#32 .ecall], 4, .done) ∧
    first [0x73#8, 0x00#8, 0x10#8, 0x00#8] = some ([.unknown 0 .four 0x00100073#32], 4, .done) ∧
    first [0x3f#8, 0x00#8, 0x00#8] = some ([.badLength 0 0x3f#8], 2, .running) ∧
    first [0x13#8] = some ([.truncated 0 .four 1], 0, .truncated) := by decide
theorem test_witness_TerminalAndFinalStates : (launch []).status ≠ .running ∧ (launch []).len ≤ (launch []).cursor ∧
    (launch []).Final ∧ (second [0x13#8]).status = .truncated ∧ (second [0x13#8]).Final := by decide
/-- A state that satisfies the invariant at the start of a scan, and its step. -/
theorem test_witness_StepKeepsScanInvariant : (launch [0x15#8, 0x45#8, 0x73#8]).Inv ∧
    (nextState (step (launch [0x15#8, 0x45#8, 0x73#8]))).isSome = true := by
  refine ⟨⟨by decide, fun h => absurd h (by decide), by decide, by decide, by decide, by decide, by decide, by decide,
    by decide⟩, by decide⟩
/-- The boundary of the cursor's range, len + 1, and a truncation: the invariant holds of both. -/
theorem test_witness_CursorFitsItsWidth : (second [0xff#8]).Inv ∧ (second [0xff#8]).len ≤ 1 ∧ (second [0xff#8]).cursor = 2 ∧
    (second [0x13#8]).Inv := by
  refine ⟨⟨by decide, fun _ => ⟨0xff#8, by decide⟩, by decide, by decide, by decide, by decide, by decide, by decide,
    by decide⟩, by decide, by decide, ⟨by decide, fun h => absurd h (by decide), by decide, by decide, by decide, by decide,
    by decide, by decide, by decide⟩⟩
/-- An invariant state that is not at the start, and its step. -/
theorem test_witness_OneRecordPerStepInOrder : (second [0x15#8, 0x45#8, 0x73#8]).Inv ∧
    view (step (second [0x15#8, 0x45#8, 0x73#8])) =
      some ([.insn 0 .two 0x4515#32 (.cLi 10 5), .truncated 2 .four 1], 2, .truncated) := by
  refine ⟨⟨by decide, fun h => absurd h (by decide), by decide, by decide, by decide, by decide, by decide, by decide,
    by decide⟩, by decide⟩
theorem test_witness_LaunchParametersAreNotWritten :
    (State.reset.status ≠ .running ∧ [0x01#8].length ≤ 1) ∧ (launch [0x13#8]).status = .running ∧
    (State.reset.status ≠ .running ∧ 1 < [0x01#8, 0x00#8].length) ∧ (nextState (step (launch [0xff#8]))).isSome = true := by
  decide
/-- The byte at the last offset and the byte before further bytes: both clauses on the status. -/
theorem test_witness_UnsupportedLengthSkipsTwo :
    ((launch [0xff#8]).Enabled ∧ (launch [0xff#8]).byteAt (launch [0xff#8]).cursor = some 0xff#8 ∧ classify 0xff#8 = .bad ∧
      (launch [0xff#8]).len ≤ (launch [0xff#8]).cursor + 2) ∧
    (launch [0x1f#8, 0x00#8, 0x01#8]).Enabled ∧
      (launch [0x1f#8, 0x00#8, 0x01#8]).byteAt (launch [0x1f#8, 0x00#8, 0x01#8]).cursor = some 0x1f#8 ∧
      classify 0x1f#8 = .bad ∧ (launch [0x1f#8, 0x00#8, 0x01#8]).cursor + 2 < (launch [0x1f#8, 0x00#8, 0x01#8]).len := by
  decide
theorem test_witness_TruncationIsFinal :
    ((launch [0x01#8]).Enabled ∧ (launch [0x01#8]).byteAt (launch [0x01#8]).cursor = some 0x01#8 ∧
      classify 0x01#8 = classOf .two ∧ (launch [0x01#8]).len - (launch [0x01#8]).cursor < InsnLen.two.bytes) ∧
    (launch [0x13#8, 0x05#8, 0x50#8]).Enabled ∧
      (launch [0x13#8, 0x05#8, 0x50#8]).byteAt (launch [0x13#8, 0x05#8, 0x50#8]).cursor = some 0x13#8 ∧
      classify 0x13#8 = classOf .four ∧
      (launch [0x13#8, 0x05#8, 0x50#8]).len - (launch [0x13#8, 0x05#8, 0x50#8]).cursor < InsnLen.four.bytes := by decide
theorem test_witness_UnknownWordAdvances :
    (Holds .two 0#32 [0x00#8, 0x00#8] ∧ (launch [0x00#8, 0x00#8]).byteAt (launch [0x00#8, 0x00#8]).cursor = some 0x00#8 ∧
      classify 0x00#8 = classOf .two ∧ routeWord .two 0#32 = none) ∧
    Holds .four 0x00b50533#32 [0x33#8, 0x05#8, 0xb5#8, 0x00#8] ∧
      (launch [0x33#8, 0x05#8, 0xb5#8, 0x00#8]).byteAt (launch [0x33#8, 0x05#8, 0xb5#8, 0x00#8]).cursor = some 0x33#8 ∧
      classify 0x33#8 = classOf .four ∧ routeWord .four 0x00b50533#32 = none := by decide
/-- One step for each of the four codes, among them an unsupported length with one byte left. -/
theorem test_witness_StepPriority :
    (nextState (step (launch [0xff#8]))).isSome = true ∧ classify 0xff#8 = .bad ∧
    ((nextState (step (launch [0x13#8]))).isSome = true ∧ classify 0x13#8 = classOf .four ∧
      (launch [0x13#8]).len - (launch [0x13#8]).cursor < InsnLen.four.bytes) ∧
    ((nextState (step (launch [0x15#8, 0x45#8]))).isSome = true ∧ classify 0x15#8 = classOf .two ∧
      Holds .two 0x4515#32 [0x15#8, 0x45#8] ∧ (routeWord .two 0x4515#32).isSome = true) ∧
    ((nextState (step (launch [0x01#8, 0x40#8]))).isSome = true ∧ classify 0x01#8 = classOf .two ∧
      Holds .two 0x4001#32 [0x01#8, 0x40#8] ∧ (routeWord .two 0x4001#32).isSome = false) := by decide
theorem test_witness_ErrorsAreIsolated :
    (second [0x3f#8, 0x00#8, 0x00#8, 0x00#8]).out = [] ++ [.badLength 0 0x3f#8] ∧
    (second [0x3f#8, 0x00#8, 0x00#8, 0x00#8]).cursor < (second [0x3f#8, 0x00#8, 0x00#8, 0x00#8]).len ∧
    (second [0x3f#8, 0x00#8, 0x00#8, 0x00#8]).Loaded ∧
    (second [0x00#8, 0x00#8, 0x13#8]).out = [] ++ [.unknown 0 .two 0#32] ∧
    (second [0x00#8, 0x00#8, 0x13#8]).cursor < (second [0x00#8, 0x00#8, 0x13#8]).len := by decide
theorem test_witness_EnabledLoadedStepCompletes : (launch [0x13#8]).Enabled ∧ (launch [0x13#8]).Loaded ∧
    (launch [0xff#8]).Enabled ∧ (launch [0xff#8]).Loaded := by decide
theorem test_witness_StartEstablishesInvariant : Memory.wf (second [0xff#8]).buf = true := by decide
/-- The invariant over a loaded buffer, one byte long and at the start. -/
theorem test_witness_EveryScanEnds : (launch [0x13#8]).Inv ∧ (launch [0x13#8]).Loaded := by
  refine ⟨⟨by decide, fun h => absurd h (by decide), by decide, by decide, by decide, by decide, by decide, by decide,
    by decide⟩, by decide⟩

/-! Encoding, ports. -/

theorem test_witness_DecodeOfEncodeIsIdentity : (Instr.cLi 31 63).wellFormed = true ∧ (Instr.jal 31 1048574).wellFormed = true ∧
    decodeBytes ((encode (.jal 31 1048574)).toBytes ++ [0xff#8]) = .insn .four 0x7fffffef#32 (.jal 31 1048574) := by decide
theorem test_witness_EncodeOfDecodeIsIdentity : decodeS 0x80001063#32 = some (.bne 0 0 (-4096)) ∧
    decodeC 0x852e#16 = some (.cMv 10 11) ∧ (Instr.cMv 10 11) ≠ .cAddi := by decide
theorem test_witness_DecodedFormsAreWellFormed : routeWord .two 0x557d#32 = some (.cLi 10 63) ∧
    routeWord .four 0x80001063#32 = some (.bne 0 0 (-4096)) := by decide
theorem test_witness_PortsCarryTheRecord : (launch [0x01#8]).Enabled ∧ (launch [0x01#8]).Loaded ∧
    (launch [0x2e#8, 0x85#8, 0x00#8, 0x00#8, 0x00#8]).Enabled ∧ (launch [0x2e#8, 0x85#8, 0x00#8, 0x00#8, 0x00#8]).Loaded := by
  decide

end Sys2Proof.Tests
end

section
/-! PROOFS. The bit fields of a word (00_scope.md R6). -/

namespace Sys2Proof

/-- A field of `hi - lo + 1` bits is in the unsigned range of that width. -/
theorem bits_lt_two_pow {n : Nat} (w : BitVec n) (hi lo : Nat) (h : lo ≤ hi ∧ hi < n ∧ hi ≤ 31) :
    bits w hi lo h < 2 ^ (hi - lo + 1) := by
  rw [bits_eq_extract]
  exact BitVec.isLt _

/-- Bit `k` of a field is word bit `lo + k` inside the field and clear above it. -/
theorem testBit_bits {n : Nat} (w : BitVec n) (hi lo : Nat) (h : lo ≤ hi ∧ hi < n ∧ hi ≤ 31) (k : Nat) :
    (bits w hi lo h).testBit k = (decide (k ≤ hi - lo) && w.getLsbD (lo + k)) := by
  rw [bits_eq_extract, BitVec.testBit_toNat, BitVec.getLsbD_extractLsb']
  simp only [Nat.lt_succ_iff]

/-- A field of one bit is that bit: it is below 2, so its bit 0 is all of it. -/
theorem bits_self {n : Nat} (w : BitVec n) (k : Nat) (h : k ≤ k ∧ k < n ∧ k ≤ 31) :
    bits w k k h = (w.getLsbD k).toNat := by
  have hlt : bits w k k h < 2 := by simpa using bits_lt_two_pow w k k h
  have hbit : (bits w k k h).testBit 0 = w.getLsbD k := by simpa using testBit_bits w k k h 0
  rw [← hbit, Nat.toNat_testBit, Nat.pow_zero, Nat.div_one, Nat.mod_eq_of_lt hlt]

/-- Settles O1: a field is a sub-vector of the word, so its range and its bits are the sub-vector's. -/
theorem fieldBitsAreWordBits : Obligations.FieldBitsAreWordBits :=
  ⟨fun _ w hi lo h => ⟨bits_lt_two_pow w hi lo h, testBit_bits w hi lo h⟩, fun _ => bits_self⟩

end Sys2Proof
end

section
/-! PROOFS. The record stream (10_state.md R25): what a step appends to it, and the order of its offsets. -/

namespace Sys2Proof.Machine

/-- A record of the decode core stands at the offset that the core was asked for. -/
theorem decodeCore_off {s : State} {i avail adv : Nat} {r : Record} (h : decodeCore s i avail = .ok (r, adv)) :
    r.off = i := by
  have sized : ∀ n, decodeSized s n i avail = .ok (r, adv) → r.off = i := fun n hs => by
    obtain ⟨-, rfl, -⟩ | ⟨-, -, w, -, ⟨x, -, rfl⟩ | ⟨-, rfl⟩⟩ := decodeSized_cases hs <;> rfl
  obtain ⟨b0, -, ⟨-, hp⟩ | ⟨-, hs⟩ | ⟨-, hs⟩⟩ := decodeCore_cases h
  · cases hp; rfl
  · exact sized .two hs
  · exact sized .four hs

/-- A recognized form that completes appends one record, at the cursor. -/
theorem exec_appends {x : Instr} {s t : State} (h : exec x s = .next t) :
    ∃ r : Record, t.out = s.out ++ [r] ∧ r.off = s.cursor := by
  rw [exec_eq_retire] at h
  obtain ⟨-, ⟨-, rfl⟩ | ⟨-, w, -, rfl⟩⟩ := retire_next h
  · exact ⟨_, raiseTruncated_out _ _, rfl⟩
  · exact ⟨_, commit_out _ _ _, rfl⟩

/-- A step appends one record, at the cursor. -/
theorem step_appends {s t : State} (h : step s = .next t) :
    ∃ r : Record, t.out = s.out ++ [r] ∧ r.off = s.cursor := by
  obtain ⟨-, r, adv, hd, ⟨off, n, w, x, -, hx⟩ | ⟨off, n, w, rfl, rfl⟩ | ⟨off, b0, -, rfl⟩ | ⟨off, need, k, -, rfl⟩⟩ :=
    step_cases h
  · exact exec_appends hx
  · exact ⟨_, commit_out _ _ _, decodeCore_off hd⟩
  · exact ⟨_, takeBadLength_out _ _, rfl⟩
  · exact ⟨_, raiseTruncated_out _ _, rfl⟩

/-- One more record keeps the order exactly if it stands after every earlier one. -/
theorem offsetsRise_append_singleton {rs : List Record} {r : Record} :
    OffsetsRise (rs ++ [r]) ↔ OffsetsRise rs ∧ ∀ q ∈ rs, q.off < r.off := by
  simp [OffsetsRise, List.pairwise_append]

/-- While the scan is running every record stands strictly before the cursor: only a final truncation stands at it. -/
theorem State.Inv.off_lt_cursor {s : State} (hs : s.Inv) (hrun : s.status = .running) {q : Record} (hq : q ∈ s.out) :
    q.off < s.cursor := by
  obtain hlt | ⟨-, htrunc⟩ := hs.before q hq
  · exact hlt
  · simp [hrun] at htrunc

/-- Settles O40: the step's record stands at the cursor, and the running scan's records all stand before it. -/
theorem oneRecordPerStepInOrder : Obligations.OneRecordPerStepInOrder := by
  intro s t h
  obtain ⟨⟨hrun, -⟩, -⟩ := step_cases h
  obtain ⟨r, hout, hoff⟩ := step_appends h
  refine ⟨r, hout, hoff, fun hs => ?_⟩
  rw [hout, offsetsRise_append_singleton, hoff]
  exact ⟨hs.rising, fun q hq => hs.off_lt_cursor hrun hq⟩

end Sys2Proof.Machine
end

section
/-! PROOFS. Multi-byte reads of the buffer (20_memory.md R42): the sum that they give and where they may lie. -/

namespace Sys2Proof.Machine

/-- The recursion of a little-endian sum: the digit at the lowest offset, then 256 times the sum of the others. -/
theorem sum_shiftLeft_bytes_succ (d : Nat → Nat) (n : Nat) :
    ∑ k ∈ Finset.range (n + 1), d k <<< (8 * k) = d 0 + 256 * ∑ k ∈ Finset.range n, d (k + 1) <<< (8 * k) := by
  have shift : ∀ k, d (k + 1) <<< (8 * (k + 1)) = 256 * d (k + 1) <<< (8 * k) := fun k => by
    rw [Nat.shiftLeft_eq, Nat.shiftLeft_eq, Nat.mul_succ, pow_add]
    ring
  rw [Finset.sum_range_succ', Finset.mul_sum, Nat.mul_zero, Nat.shiftLeft_zero, Nat.add_comm]
  simp only [shift]

/-- Where every byte of the range is in the buffer, the read gives their little-endian sum. -/
theorem memRead_eq_sum {s : State} {n off : Nat} {f : Nat → Byte} (h : ∀ k < n, s.byteAt (off + k) = some (f k)) :
    s.memRead off n = some (∑ k ∈ Finset.range n, (f k).toNat <<< (8 * k)) := by
  induction n generalizing off f with
  | zero => rfl
  | succ n ih =>
    have first : s.byteAt off = some (f 0) := h 0 n.succ_pos
    have rest : ∀ k < n, s.byteAt (off + 1 + k) = some (f (k + 1)) := fun k hk => by
      rw [Nat.add_assoc, Nat.add_comm 1 k]
      exact h (k + 1) (Nat.succ_lt_succ hk)
    rw [memRead_succ_of first (ih rest), sum_shiftLeft_bytes_succ]

/-- The last byte of a read that gives a value is inside the buffer. -/
theorem memRead_last_lt {s : State} {n off v : Nat} (h : s.memRead off (n + 1) = some v) : off + n < s.len := by
  induction n generalizing off v with
  | zero =>
    obtain ⟨b, u, hb, -, -⟩ := memRead_succ h
    exact byteAt_lt hb
  | succ n ih =>
    obtain ⟨b, u, -, hu, -⟩ := memRead_succ h
    have hlt : off + 1 + n < s.len := ih hu
    omega

/-- Settles O10: the sum is built byte by byte with the recursion of the read, and the last byte read is inside the
buffer. -/
theorem memReadIsLittleEndian : Obligations.MemReadIsLittleEndian := by
  refine ⟨fun s off n f => memRead_eq_sum, fun s off n v hn h => ?_⟩
  obtain ⟨m, rfl⟩ := Nat.exists_eq_succ_of_ne_zero hn.ne'
  exact memRead_last_lt h

end Sys2Proof.Machine
end

section
/-! PROOFS. The operand fields as sub-vectors of the word (30_encoding.md R75–R82): an immediate is the two's-complement
reading of its joined parts, a register or CSR field is its bits. -/

namespace Sys2Proof

open Machine

/-! ### Register fields, the CSR address and the c.li immediate -/

/-- A field cut to its own width is the sub-vector. -/
theorem ofNat_bits {n : Nat} (w : BitVec n) (hi lo : Nat) (h : lo ≤ hi ∧ hi < n ∧ hi ≤ 31) :
    BitVec.ofNat (hi - lo + 1) (bits w hi lo h) = w.extractLsb' lo (hi - lo + 1) := by
  rw [bits_eq_extract, BitVec.ofNat_toNat, BitVec.setWidth_eq]

theorem rdOf_eq_extract (w : Word) : rdOf w = w.extractLsb' 7 5 := ofNat_bits w 11 7 (by decide)

theorem rs1Of_eq_extract (w : Word) : rs1Of w = w.extractLsb' 15 5 := ofNat_bits w 19 15 (by decide)

theorem rs2Of_eq_extract (w : Word) : rs2Of w = w.extractLsb' 20 5 := ofNat_bits w 24 20 (by decide)

theorem rdOfC_eq_extract (w : Half) : rdOfC w = w.extractLsb' 7 5 := ofNat_bits w 11 7 (by decide)

theorem rsOfC_eq_extract (w : Half) : rsOfC w = w.extractLsb' 2 5 := ofNat_bits w 6 2 (by decide)

theorem csrOf_eq_extract (w : Word) : csrOf w = w.extractLsb' 20 12 := ofNat_bits w 31 20 (by decide)

/-- The sum of R80 joins the two fields: the low one is below the shifted one. -/
theorem immCI_eq_append (w : Half) : immCI w = w.extractLsb' 12 1 ++ w.extractLsb' 2 5 := by
  rw [immCI, bits_eq_extract, bits_eq_extract, Nat.add_comm, Nat.shiftLeft_eq, ← toNat_append_eq_add,
    BitVec.ofNat_toNat, BitVec.setWidth_eq]

/-- Every register index is in R82's range. -/
theorem regIndex_toNat_le (r : RegIndex) : r.toNat ≤ 31 := Nat.le_of_lt_succ r.isLt

/-- Settles O6: each operand is a sub-vector of its word, so its range is that of the sub-vector's width. -/
theorem unsignedOperandFields : Obligations.UnsignedOperandFields := by
  refine ⟨fun w => ⟨?_, Nat.le_of_lt_succ (immCI w).isLt⟩,
    fun w => ⟨csrOf_eq_extract w, Nat.le_of_lt_succ (csrOf w).isLt⟩,
    fun w => ⟨rdOf_eq_extract w, rs1Of_eq_extract w, rs2Of_eq_extract w,
      regIndex_toNat_le _, regIndex_toNat_le _, regIndex_toNat_le _⟩,
    fun w => ⟨rdOfC_eq_extract w, rsOfC_eq_extract w, regIndex_toNat_le _, regIndex_toNat_le _⟩⟩
  rw [immCI_eq_append, toNat_append_eq_add, Nat.shiftLeft_eq, Nat.add_comm]

/-! ### Signed immediates -/

theorem immI_eq_toInt (w : Word) : immI w = (w.extractLsb' 20 12).toInt := by
  rw [immI, bits_eq_extract]
  exact signExtend_toNat _

theorem immU_eq_toInt (w : Word) : immU w = (w.extractLsb' 12 20).toInt := by
  rw [immU, bits_eq_extract]
  exact signExtend_toNat _

theorem immS_eq_toInt (w : Word) : immS w = (w.extractLsb' 25 7 ++ w.extractLsb' 7 5).toInt := by
  rw [← signExtend_toNat, BitVec.toNat_append, Nat.lor_comm, immS, bits_eq_extract, bits_eq_extract]

/-- A shifted concatenation is its parts, each shifted to its own place. -/
theorem toNat_append_shiftLeft {m n : Nat} (x : BitVec m) (y : BitVec n) (k : Nat) :
    (x ++ y).toNat <<< k = x.toNat <<< (n + k) ||| y.toNat <<< k := by
  rw [BitVec.toNat_append, Nat.shiftLeft_or_distrib, Nat.shiftLeft_add]

/-- An offset whose bit 0 is not encoded is its encoded part, shifted. -/
theorem toNat_append_zero_bit {m : Nat} (x : BitVec m) : (x ++ 0#1).toNat = x.toNat <<< 1 := by
  rw [BitVec.toNat_append, BitVec.toNat_zero, Nat.or_zero]

/-- Each part of R77 stands at the place that the concatenation gives it. -/
theorem immB_eq_toInt (w : Word) :
    immB w = (w.extractLsb' 31 1 ++ w.extractLsb' 7 1 ++ w.extractLsb' 25 6 ++ w.extractLsb' 8 4 ++ 0#1).toInt := by
  have reorder : ∀ a b c d : Nat, a ||| b ||| c ||| d = a ||| d ||| b ||| c := fun a b c d => by ac_rfl
  rw [← signExtend_toNat, toNat_append_zero_bit, toNat_append_shiftLeft, toNat_append_shiftLeft,
    toNat_append_shiftLeft, immB, bits_eq_extract, bits_eq_extract, bits_eq_extract, bits_eq_extract]
  exact congrArg (signExtend · 13) (reorder _ _ _ _)

/-- Each part of R78 stands at the place that the concatenation gives it. -/
theorem immJ_eq_toInt (w : Word) :
    immJ w = (w.extractLsb' 31 1 ++ w.extractLsb' 12 8 ++ w.extractLsb' 20 1 ++ w.extractLsb' 21 10 ++ 0#1).toInt := by
  have reorder : ∀ a b c d : Nat, a ||| b ||| c ||| d = a ||| d ||| c ||| b := fun a b c d => by ac_rfl
  rw [← signExtend_toNat, toNat_append_zero_bit, toNat_append_shiftLeft, toNat_append_shiftLeft,
    toNat_append_shiftLeft, immJ, bits_eq_extract, bits_eq_extract, bits_eq_extract, bits_eq_extract]
  exact congrArg (signExtend · 21) (reorder _ _ _ _)

/-- The range of a 12-bit two's-complement number. -/
theorem toInt_mem_range12 (v : BitVec 12) : -2048 ≤ v.toInt ∧ v.toInt ≤ 2047 :=
  ⟨v.le_toInt, Int.le_of_lt_add_one v.toInt_lt⟩

/-- The two's-complement reading is congruent to the unsigned one. -/
theorem toInt_emod_two_pow {n : Nat} (v : BitVec n) : v.toInt % (2 ^ n : Nat) = v.toNat := by
  rw [BitVec.toInt_eq_toNat_bmod, Int.bmod_emod]
  exact_mod_cast Nat.mod_eq_of_lt v.isLt

/-- The 32-bit port carries every number of at most 32 bits exactly. -/
theorem toInt_immPort_toInt {n : Nat} (hn : n ≤ 32) (v : BitVec n) : (immPort v.toInt).toInt = v.toInt :=
  BitVec.toInt_signExtend_of_le hn

/-- Settles O3: the immediate is the two's-complement reading of a 12-bit field, which fixes its range and its residue. -/
theorem immediateIIsSignExtended : Obligations.ImmediateIIsSignExtended := by
  refine ⟨fun w => ?_, fun v => ?_⟩
  · obtain ⟨hlo, hhi⟩ := toInt_mem_range12 (w.extractLsb' 20 12)
    rw [signExtend_toNat, immI_eq_toInt]
    exact ⟨rfl, rfl, hlo, hhi, toInt_immPort_toInt (by decide) _⟩
  · obtain ⟨hlo, hhi⟩ := toInt_mem_range12 v
    rw [signExtend_toNat]
    exact ⟨hlo, hhi, toInt_emod_two_pow v⟩

/-- Settles O4: the halves are joined to a 12-bit number before its sign is read. -/
theorem immediateSJoinsItsHalves : Obligations.ImmediateSJoinsItsHalves := by
  intro w
  obtain ⟨hlo, hhi⟩ := toInt_mem_range12 (w.extractLsb' 25 7 ++ w.extractLsb' 7 5)
  rw [immS_eq_toInt]
  refine ⟨?_, rfl, hlo, hhi⟩
  rw [Nat.lor_comm, ← BitVec.toNat_append, signExtend_toNat]

end Sys2Proof
end

section
/-! PROOFS. The step at an instruction word that matches no form, and at an unsupported length (30_encoding.md R61;
40_decode_step.md R101, R104). -/

namespace Sys2Proof.Machine

open Claims

/-- In a running scan, emitting and advancing leads to the state that the claims spell out. -/
theorem commit_eq_after {s : State} (hrun : s.status = .running) (r : Record) (n : Nat) :
    commit r n s = after r n s := by
  rw [after, ← hrun]
  rfl

/-- The byte at the offset of a read is the low byte of its value. -/
theorem byteAt_of_memRead {s : State} {off n v : Nat} (h : s.memRead off (n + 1) = some v) :
    s.byteAt off = some (BitVec.ofNat 8 v) := by
  obtain ⟨b, u, hb, -, rfl⟩ := memRead_succ h
  have low : BitVec.ofNat 8 (b.toNat + 256 * u) = b :=
    BitVec.eq_of_toNat_eq (by rw [BitVec.toNat_ofNat, Nat.add_mul_mod_self_left, Nat.mod_eq_of_lt b.isLt])
  rw [hb, low]

/-- A word that can be read at the cursor is not truncated. -/
theorem bytes_le_avail {s : State} {n : InsnLen} {v : Nat} (h : s.memRead s.cursor n.bytes = some v) :
    n.bytes ≤ s.avail := by
  have hlast : s.cursor + (n.bytes - 1) < s.len := by
    cases n <;> exact memRead_last_lt h
  unfold State.avail
  omega

/-- Where a word can be read whose low byte has the class of its length, the core goes on with that length. -/
theorem decodeCore_eq_decodeSized {s : State} {i : Nat} {n : InsnLen} {w : Word}
    (hw : s.memRead i n.bytes = some w.toNat) (hc : classify (w.setWidth 8) = classOf n) (avail : Nat) :
    decodeCore s i avail = decodeSized s n i avail := by
  have hb : s.byteAt i = some (w.setWidth 8) := by
    rw [← BitVec.ofNat_toNat]
    cases n <;> exact byteAt_of_memRead hw
  rw [decodeCore_of_byte avail hb, hc]
  cases n <;> rfl

theorem decodeSized_of_unknown {s : State} {i avail : Nat} {n : InsnLen} {w : Word} (ha : n.bytes ≤ avail)
    (hw : s.memRead i n.bytes = some w.toNat) (hr : routeWord n w = none) :
    decodeSized s n i avail = .ok (.unknown i n w, n.bytes) := by
  rw [decodeSized, if_neg ha.not_gt, hw]
  simp only [BitVec.ofNat_toNat, BitVec.setWidth_eq, hr]

/-- A word that the router of its length does not recognize emits `Unknown` wherever it stands. -/
theorem emitsUnknown_of_routeWord {n : InsnLen} {w : Word} (hc : classify (w.setWidth 8) = classOf n)
    (hr : routeWord n w = none) : EmitsUnknown n w := by
  intro s he hw
  have hd : decodeCore s s.cursor s.avail = .ok (.unknown s.cursor n w, n.bytes) := by
    rw [decodeCore_eq_decodeSized hw hc, decodeSized_of_unknown (bytes_le_avail hw) hw hr]
  rw [step_of_unknown he hd, commit_eq_after he.1]

/-- At a byte of an unsupported length the step emits `BadLength` and skips 2 bytes. -/
theorem step_at_bad {s : State} {b0 : Byte} (he : s.Enabled) (hb : s.byteAt s.cursor = some b0)
    (hc : classify b0 = .bad) : step s = .next (after (.badLength s.cursor b0) 2 s) := by
  have hd : decodeCore s s.cursor s.avail = .ok (.badLength s.cursor b0, 2) := by
    rw [decodeCore_of_byte _ hb, hc]
  rw [step_of_badLength he hd, takeBadLength, commit_eq_after he.1]

/-- Settles O7: the two tests of the classifier in turn, and the step at a byte that fails both. -/
theorem classifierFollowsItsRule : Obligations.ClassifierFollowsItsRule := by
  intro b0
  refine ⟨fun h2 => ?_, fun h2 h4 => ?_, fun h2 h4 => ?_⟩
  · rw [classify, if_pos h2]
  · rw [classify, if_neg (not_not.2 h2), if_pos h4]
  · have hbad : classify b0 = .bad := by rw [classify, if_neg (not_not.2 h2), if_neg (not_not.2 h4)]
    exact ⟨hbad, fun s he hb => step_at_bad he hb hbad⟩

end Sys2Proof.Machine
end

section
/-! PROOFS. The opcode maps (30_encoding.md R83, R84): each match condition in bit fields, each row's record with the
operands of its format, and `Unknown` for the rest. -/

namespace Sys2Proof

open Machine Claims

/-! ### Match conditions in bit fields -/

/-- A field has a value exactly if the sub-vector is that value. -/
theorem bits_eq_toNat_iff {n : Nat} (w : BitVec n) (hi lo : Nat) (h : lo ≤ hi ∧ hi < n ∧ hi ≤ 31)
    (v : BitVec (hi - lo + 1)) : bits w hi lo h = v.toNat ↔ w.extractLsb' lo (hi - lo + 1) = v := by
  rw [bits_eq_extract, BitVec.toNat_inj]

/-- The op and funct3 fields of a compressed word. -/
theorem op_funct3_iff (w : Half) (op : BitVec 2) (f3 : BitVec 3) :
    (bits w 1 0 = op.toNat ∧ bits w 15 13 = f3.toNat) ↔ w.extractLsb' 0 2 = op ∧ w.extractLsb' 13 3 = f3 :=
  and_congr (bits_eq_toNat_iff w 1 0 _ op) (bits_eq_toNat_iff w 15 13 _ f3)

theorem matchesCAddi_iff {w : Half} :
    MatchesCAddi w ↔ w.extractLsb' 0 2 = 0b01#2 ∧ w.extractLsb' 13 3 = 0b000#3 :=
  op_funct3_iff w 0b01#2 0b000#3

theorem matchesCLi_iff {w : Half} :
    MatchesCLi w ↔ w.extractLsb' 0 2 = 0b01#2 ∧ w.extractLsb' 13 3 = 0b010#3 ∧ w.extractLsb' 7 5 ≠ 0 := by
  have hrd : bits w 11 7 = 0 ↔ w.extractLsb' 7 5 = 0 := bits_eq_toNat_iff w 11 7 _ 0
  rw [MatchesCLi, ← and_assoc, ← and_assoc]
  exact and_congr (op_funct3_iff w 0b01#2 0b010#3) (not_congr hrd)

theorem matchesCMv_iff {w : Half} :
    MatchesCMv w ↔ w.extractLsb' 0 2 = 0b10#2 ∧ w.extractLsb' 13 3 = 0b100#3 ∧ w.extractLsb' 2 5 ≠ 0 ∧
      w.extractLsb' 7 5 ≠ 0 ∧ w.extractLsb' 12 1 = 0 := by
  have hrs : bits w 6 2 = 0 ↔ w.extractLsb' 2 5 = 0 := bits_eq_toNat_iff w 6 2 _ 0
  have hrd : bits w 11 7 = 0 ↔ w.extractLsb' 7 5 = 0 := bits_eq_toNat_iff w 11 7 _ 0
  have hbit : bits w 12 12 = 0 ↔ w.extractLsb' 12 1 = 0 := bits_eq_toNat_iff w 12 12 _ 0
  rw [MatchesCMv, ← and_assoc, ← and_assoc (a := _ = 0b10#2)]
  exact and_congr (op_funct3_iff w 0b10#2 0b100#3) (and_congr (not_congr hrs) (and_congr (not_congr hrd) hbit))

/-- The opcode field of a standard word. -/
theorem opcode_iff (w : Word) (op : BitVec 7) : bits w 6 0 = op.toNat ↔ w.extractLsb' 0 7 = op :=
  bits_eq_toNat_iff w 6 0 _ op

/-- The opcode and funct3 fields of a standard word. -/
theorem opcode_funct3_iff (w : Word) (op : BitVec 7) (f3 : BitVec 3) :
    (bits w 6 0 = op.toNat ∧ bits w 14 12 = f3.toNat) ↔ w.extractLsb' 0 7 = op ∧ w.extractLsb' 12 3 = f3 :=
  and_congr (opcode_iff w op) (bits_eq_toNat_iff w 14 12 _ f3)

theorem matchesAddi_iff {w : Word} :
    MatchesAddi w ↔ w.extractLsb' 0 7 = 0b0010011#7 ∧ w.extractLsb' 12 3 = 0b000#3 :=
  opcode_funct3_iff w 0b0010011#7 0b000#3

theorem matchesSw_iff {w : Word} :
    MatchesSw w ↔ w.extractLsb' 0 7 = 0b0100011#7 ∧ w.extractLsb' 12 3 = 0b010#3 :=
  opcode_funct3_iff w 0b0100011#7 0b010#3

theorem matchesLw_iff {w : Word} :
    MatchesLw w ↔ w.extractLsb' 0 7 = 0b0000011#7 ∧ w.extractLsb' 12 3 = 0b010#3 :=
  opcode_funct3_iff w 0b0000011#7 0b010#3

theorem matchesBne_iff {w : Word} :
    MatchesBne w ↔ w.extractLsb' 0 7 = 0b1100011#7 ∧ w.extractLsb' 12 3 = 0b001#3 :=
  opcode_funct3_iff w 0b1100011#7 0b001#3

theorem matchesBlt_iff {w : Word} :
    MatchesBlt w ↔ w.extractLsb' 0 7 = 0b1100011#7 ∧ w.extractLsb' 12 3 = 0b100#3 :=
  opcode_funct3_iff w 0b1100011#7 0b100#3

theorem matchesJal_iff {w : Word} : MatchesJal w ↔ w.extractLsb' 0 7 = 0b1101111#7 := opcode_iff w 0b1101111#7

theorem matchesLui_iff {w : Word} : MatchesLui w ↔ w.extractLsb' 0 7 = 0b0110111#7 := opcode_iff w 0b0110111#7

theorem matchesCsrrs_iff {w : Word} :
    MatchesCsrrs w ↔ w.extractLsb' 0 7 = 0b1110011#7 ∧ w.extractLsb' 12 3 = 0b010#3 :=
  opcode_funct3_iff w 0b1110011#7 0b010#3

/-! ### The compressed map -/

/-- A compressed word whose op is not 11 starts with a byte of the 2-byte class. -/
theorem classify_low_byte_of_half {w : Half} (h : w.extractLsb' 0 2 ≠ 0b11#2) :
    classify ((w.setWidth 32).setWidth 8) = .len2 := by
  have hlow : w.toNat % 4 ≠ 3 := fun h3 =>
    h (BitVec.eq_of_toNat_eq (by simpa [BitVec.extractLsb'_toNat] using h3))
  have hbyte : ((w.setWidth 32).setWidth 8).toNat % 4 = w.toNat % 4 := by
    simp only [BitVec.toNat_setWidth]
    omega
  rw [classify_eq, hbyte, if_pos hlow]

/-- The compressed router sees the record's zero-extended word as the 16-bit word it was. -/
theorem routeWord_two_setWidth (w : Half) : routeWord .two (w.setWidth 32) = decodeC w := by
  rw [routeWord, BitVec.setWidth_setWidth_of_le w (by decide), BitVec.setWidth_eq]

/-- Settles O12: the rows of the router with their conditions and operands in bit fields. -/
theorem compressedOpcodeMap : Obligations.CompressedOpcodeMap := by
  intro w
  rw [← matchesCAddi_iff, ← matchesCLi_iff, ← matchesCMv_iff, ← immCI_eq_append, ← rdOfC_eq_extract,
    ← rsOfC_eq_extract]
  refine ⟨decodeC_ofCAddi, decodeC_ofCLi, decodeC_ofCMv, fun h1 h2 h3 => ?_⟩
  have hnone : decodeC w = none := decodeC_none h1 h2 h3
  refine ⟨hnone, fun hop => emitsUnknown_of_routeWord (classify_low_byte_of_half hop) ?_⟩
  rw [routeWord_two_setWidth, hnone]

/-! ### The standard map -/

/-- Settles O14: the rows of the router with their conditions and operands in bit fields. -/
theorem standardOpcodeMap : Obligations.StandardOpcodeMap := by
  intro w
  rw [← matchesAddi_iff, ← matchesSw_iff, ← matchesLw_iff, ← matchesBne_iff, ← matchesBlt_iff, ← matchesJal_iff,
    ← matchesLui_iff, ← matchesCsrrs_iff, ← immI_eq_toInt, ← immS_eq_toInt, ← immB_eq_toInt, ← immJ_eq_toInt,
    ← immU_eq_toInt, ← rdOf_eq_extract, ← rs1Of_eq_extract, ← rs2Of_eq_extract, ← csrOf_eq_extract]
  refine ⟨decodeS_ofAddi, decodeS_ofSw, decodeS_ofLw, decodeS_ofBne, decodeS_ofBlt, decodeS_ofJal, decodeS_ofLui,
    decodeS_ofCsrrs, decodeS_ofWfi, decodeS_ofEcall, fun h0 h1 h2 h3 h4 h5 h6 h7 h8 h9 => ?_⟩
  have hnone : decodeS w = none := decodeS_none h0 h1 h2 h3 h4 h5 h6 h7 h8 h9
  exact ⟨hnone, fun hc => emitsUnknown_of_routeWord hc hnone⟩

end Sys2Proof
end

section
/-! PROOFS. The words that no form matches (40_decode_step.md R112, R113): each router gives no form exactly outside its
conditions, and what that leaves in each op or opcode. -/

namespace Sys2Proof

/-- A condition under which a form is decoded fails where none is decoded. -/
theorem not_of_decodes {p : Prop} {o : Option Instr} {x : Instr} (hnone : o = none) (hp : p → o = some x) : ¬p :=
  fun h => Option.some_ne_none x ((hp h).symm.trans hnone)

/-! ### The compressed router -/

theorem decodeC_eq_none_iff {w : Half} :
    decodeC w = none ↔ ¬MatchesCAddi w ∧ ¬MatchesCLi w ∧ ¬MatchesCMv w :=
  ⟨fun h => ⟨not_of_decodes h decodeC_ofCAddi, not_of_decodes h decodeC_ofCLi, not_of_decodes h decodeC_ofCMv⟩,
    fun ⟨h0, h1, h2⟩ => decodeC_none h0 h1 h2⟩

/-- Outside op 01 the only form is `c.mv`. -/
theorem decodeC_eq_none_of_op_ne_01 {w : Half} (hop : w.extractLsb' 0 2 ≠ 0b01#2) (hmv : ¬MatchesCMv w) :
    decodeC w = none :=
  decodeC_none (fun h => hop (matchesCAddi_iff.1 h).1) (fun h => hop (matchesCLi_iff.1 h).1) hmv

/-- In op 01 the funct3 decides between `c.addi` and `c.li`, and the latter needs a destination. -/
theorem decodeC_eq_none_of_op_01 {w : Half} (hop : w.extractLsb' 0 2 = 0b01#2) (haddi : w.extractLsb' 13 3 ≠ 0b000#3)
    (hli : w.extractLsb' 13 3 = 0b010#3 → w.extractLsb' 7 5 = 0) : decodeC w = none := by
  refine decodeC_none (fun h => ?_) (fun h => ?_) (fun h => ?_)
  · exact haddi (matchesCAddi_iff.1 h).2
  · obtain ⟨-, hf, hrd⟩ := matchesCLi_iff.1 h
    exact hrd (hli hf)
  · exact absurd (hop.symm.trans (matchesCMv_iff.1 h).1) (by decide)

/-- Settles O13: op 01 and the other ops apart, the listed spaces are what the three conditions leave. -/
theorem compressedUnknownSpace : Obligations.CompressedUnknownSpace := by
  refine ⟨fun w => decodeC_eq_none_iff, fun w hop => ?_, fun w hop haddi hli => ?_, fun w hop hf hrd => ?_,
    fun w hop hmv => ?_⟩
  · exact decodeC_eq_none_of_op_ne_01 (by simp [hop]) (by simp [matchesCMv_iff, hop])
  · exact decodeC_eq_none_of_op_01 hop haddi (fun hf => absurd hf hli)
  · exact decodeC_eq_none_of_op_01 hop (by simp [hf]) (fun _ => hrd)
  · exact decodeC_eq_none_of_op_ne_01 (by simp [hop]) hmv

/-! ### The standard router -/

theorem decodeS_eq_none_iff {w : Word} : decodeS w = none ↔
    ¬MatchesAddi w ∧ ¬MatchesSw w ∧ ¬MatchesLw w ∧ ¬MatchesBne w ∧ ¬MatchesBlt w ∧ ¬MatchesJal w ∧ ¬MatchesLui w ∧
      ¬MatchesCsrrs w ∧ ¬MatchesWfi w ∧ ¬MatchesEcall w :=
  ⟨fun h => ⟨not_of_decodes h decodeS_ofAddi, not_of_decodes h decodeS_ofSw, not_of_decodes h decodeS_ofLw,
      not_of_decodes h decodeS_ofBne, not_of_decodes h decodeS_ofBlt, not_of_decodes h decodeS_ofJal,
      not_of_decodes h decodeS_ofLui, not_of_decodes h decodeS_ofCsrrs, not_of_decodes h decodeS_ofWfi,
      not_of_decodes h decodeS_ofEcall⟩,
    fun ⟨h0, h1, h2, h3, h4, h5, h6, h7, h8, h9⟩ => decodeS_none h0 h1 h2 h3 h4 h5 h6 h7 h8 h9⟩

theorem opcode_of_matchesWfi {w : Word} (h : MatchesWfi w) : w.extractLsb' 0 7 = 0b1110011#7 := by
  subst h; decide

theorem opcode_of_matchesEcall {w : Word} (h : MatchesEcall w) : w.extractLsb' 0 7 = 0b1110011#7 := by
  subst h; decide

/-- Outside the SYSTEM opcode seven conditions are left, all on opcode and funct3. -/
theorem decodeS_eq_none_iff_of_not_system {w : Word} (hsys : w.extractLsb' 0 7 ≠ 0b1110011#7) : decodeS w = none ↔
    ¬(w.extractLsb' 0 7 = 0b0010011#7 ∧ w.extractLsb' 12 3 = 0b000#3) ∧
    ¬(w.extractLsb' 0 7 = 0b0100011#7 ∧ w.extractLsb' 12 3 = 0b010#3) ∧
    ¬(w.extractLsb' 0 7 = 0b0000011#7 ∧ w.extractLsb' 12 3 = 0b010#3) ∧
    ¬(w.extractLsb' 0 7 = 0b1100011#7 ∧ w.extractLsb' 12 3 = 0b001#3) ∧
    ¬(w.extractLsb' 0 7 = 0b1100011#7 ∧ w.extractLsb' 12 3 = 0b100#3) ∧
    w.extractLsb' 0 7 ≠ 0b1101111#7 ∧ w.extractLsb' 0 7 ≠ 0b0110111#7 := by
  have hcsrrs : ¬MatchesCsrrs w := fun h => hsys (matchesCsrrs_iff.1 h).1
  have hwfi : ¬MatchesWfi w := fun h => hsys (opcode_of_matchesWfi h)
  have hecall : ¬MatchesEcall w := fun h => hsys (opcode_of_matchesEcall h)
  rw [decodeS_eq_none_iff, matchesAddi_iff, matchesSw_iff, matchesLw_iff, matchesBne_iff, matchesBlt_iff,
    matchesJal_iff, matchesLui_iff]
  simp only [hcsrrs, hwfi, hecall, not_false_iff, and_true, ne_eq]

/-- In the SYSTEM opcode only the three system forms are left. -/
theorem decodeS_eq_none_iff_of_system {w : Word} (hsys : w.extractLsb' 0 7 = 0b1110011#7) : decodeS w = none ↔
    w.extractLsb' 12 3 ≠ 0b010#3 ∧ w ≠ 0x10500073#32 ∧ w ≠ 0x00000073#32 := by
  rw [decodeS_eq_none_iff, matchesAddi_iff, matchesSw_iff, matchesLw_iff, matchesBne_iff, matchesBlt_iff,
    matchesJal_iff, matchesLui_iff, matchesCsrrs_iff]
  simp [hsys]

/-- Settles O15: the SYSTEM opcode and the other opcodes apart, the listed spaces are what the ten conditions leave. -/
theorem standardUnknownSpace : Obligations.StandardUnknownSpace := by
  refine ⟨fun w => decodeS_eq_none_iff, fun w hop => ?_, fun w hop hf => ?_, fun w hop hf => ?_, fun w hop hf => ?_,
    fun w hop hne hlt => ?_, fun w hop hf hwfi hecall => ?_⟩
  · simp only [List.mem_cons, List.not_mem_nil, or_false, not_or] at hop
    obtain ⟨haddi, hsw, hlw, hbranch, hjal, hlui, hsys⟩ := hop
    exact (decodeS_eq_none_iff_of_not_system hsys).2 ⟨fun h => haddi h.1, fun h => hsw h.1, fun h => hlw h.1,
      fun h => hbranch h.1, fun h => hbranch h.1, hjal, hlui⟩
  · exact (decodeS_eq_none_iff_of_not_system (by simp [hop])).2 (by simp [hop, hf])
  · exact (decodeS_eq_none_iff_of_not_system (by simp [hop])).2 (by simp [hop, hf])
  · exact (decodeS_eq_none_iff_of_not_system (by simp [hop])).2 (by simp [hop, hf])
  · exact (decodeS_eq_none_iff_of_not_system (by simp [hop])).2 (by simp [hop, hne, hlt])
  · exact (decodeS_eq_none_iff_of_system hop).2 ⟨hf, hwfi, hecall⟩

end Sys2Proof
end

section
/-! PROOFS. What a step does with the record it emits (40_decode_step.md R104, R105): the record fixes the advance of the
cursor, and an error that does not end the scan leaves the next step enabled (R111). -/

namespace Sys2Proof

theorem InsnLen.bytes_pos (n : InsnLen) : 0 < n.bytes := by
  cases n <;> decide

namespace Machine

/-! ### The advance is that of the record -/

/-- The decode core's advance is the one that R105 gives its record. -/
theorem decodeCore_adv {s : State} {i avail adv : Nat} {r : Record} (h : decodeCore s i avail = .ok (r, adv)) :
    adv = r.advance := by
  have sized : ∀ n, decodeSized s n i avail = .ok (r, adv) → adv = r.advance := fun n hs => by
    obtain ⟨-, rfl, rfl⟩ | ⟨-, rfl, w, -, ⟨x, -, rfl⟩ | ⟨-, rfl⟩⟩ := decodeSized_cases hs <;> rfl
  obtain ⟨b0, -, ⟨-, hp⟩ | ⟨-, hs⟩ | ⟨-, hs⟩⟩ := decodeCore_cases h
  · cases hp; rfl
  · exact sized .two hs
  · exact sized .four hs

/-- A form's meaning either ends the scan with a truncation or commits one record by its own advance. -/
theorem exec_commits {x : Instr} {s t : State} (h : exec x s = .next t) :
    (∃ need, t = raiseTruncated need s) ∨ ∃ r : Record, r.isTruncated = false ∧ t = commit r r.advance s := by
  rw [exec_eq_retire] at h
  obtain ⟨-, ⟨-, ht⟩ | ⟨-, w, -, ht⟩⟩ := retire_next h
  · exact .inl ⟨_, ht⟩
  · exact .inr ⟨.insn s.cursor x.length (BitVec.ofNat 32 w) x, rfl, ht⟩

/-- A step either ends the scan with a truncation or commits one record by its own advance. -/
theorem step_commits {s t : State} (h : step s = .next t) :
    (∃ need, t = raiseTruncated need s) ∨ ∃ r : Record, r.isTruncated = false ∧ t = commit r r.advance s := by
  obtain ⟨-, r, adv, hd, ⟨off, n, w, x, -, hx⟩ | ⟨off, n, w, rfl, ht⟩ | ⟨off, b0, -, ht⟩ | ⟨off, need, k, -, ht⟩⟩ :=
    step_cases h
  · exact exec_commits hx
  · exact .inr ⟨_, rfl, decodeCore_adv hd ▸ ht⟩
  · exact .inr ⟨.badLength s.cursor b0, rfl, ht⟩
  · exact .inl ⟨need, ht⟩

/-- Settles O38: a committed record moves the cursor by its advance, which is a numeral for each kind and length; a
truncation leaves the cursor and ends the scan. -/
theorem cursorAdvancesByRecord : Obligations.CursorAdvancesByRecord := by
  intro s t h
  obtain ⟨need, rfl⟩ | ⟨r, hr, rfl⟩ := step_commits h
  · refine ⟨.truncated s.cursor need (s.len - s.cursor), raiseTruncated_out _ _, ?_⟩
    simp [State.Final]
  · refine ⟨r, commit_out _ _ _, ?_⟩
    cases r with
    | insn off n w x => cases n <;> simp [Record.advance, InsnLen.bytes]
    | unknown off n w => cases n <;> simp [Record.advance, InsnLen.bytes]
    | badLength off b0 => simp [Record.advance]
    | truncated off need k => exact absurd hr (by simp [Record.isTruncated])

/-! ### The next step after an error -/

/-- Over a loaded buffer a word that is not truncated can be read. -/
theorem memRead_of_loaded {s : State} (hl : s.Loaded) {n : InsnLen} {i : Nat} (h : n.bytes ≤ s.len - i) :
    ∃ v, s.memRead i n.bytes = some v := by
  have hpos : 0 < n.bytes := n.bytes_pos
  exact memRead_isSome hl n.bytes i (by omega)

/-- Over a loaded buffer the core always answers once a length is classified. -/
theorem decodeSized_ok_of_loaded {s : State} (hl : s.Loaded) (n : InsnLen) (i : Nat) :
    ∃ p, decodeSized s n i (s.len - i) = .ok p := by
  unfold decodeSized
  by_cases ha : s.len - i < n.bytes
  · exact ⟨_, if_pos ha⟩
  · obtain ⟨v, hv⟩ := memRead_of_loaded hl (Nat.le_of_not_lt ha)
    simp only [if_neg ha, hv]
    cases routeWord n (BitVec.ofNat 32 v) <;> exact ⟨_, rfl⟩

/-- Over a loaded buffer the core answers a record at every offset below `len`. -/
theorem decodeCore_ok_of_loaded {s : State} (hl : s.Loaded) {i : Nat} (hi : i < s.len) :
    ∃ p, decodeCore s i (s.len - i) = .ok p := by
  obtain ⟨b0, hb⟩ := byteAt_of_loaded hl hi
  rw [decodeCore_of_byte _ hb]
  cases classify b0 with
  | len2 => exact decodeSized_ok_of_loaded hl .two i
  | len4 => exact decodeSized_ok_of_loaded hl .four i
  | bad => exact ⟨_, rfl⟩

/-- Over a loaded buffer every form's meaning gives a next state where a step is enabled. -/
theorem exec_next_of_loaded {s : State} (he : s.Enabled) (hl : s.Loaded) (x : Instr) : ∃ t, exec x s = .next t := by
  rw [exec_eq_retire]
  by_cases ha : s.avail < x.length.bytes
  · exact ⟨_, retire_truncated he ha⟩
  · obtain ⟨v, hv⟩ := memRead_of_loaded hl (Nat.le_of_not_lt ha)
    exact ⟨_, retire_of he (Nat.le_of_not_lt ha) hv⟩

/-- Over a loaded buffer every enabled step gives a next state. -/
theorem step_next_of_loaded {s : State} (he : s.Enabled) (hl : s.Loaded) : ∃ t, step s = .next t := by
  obtain ⟨⟨r, adv⟩, hd⟩ := decodeCore_ok_of_loaded hl he.2
  cases r with
  | insn off n w x => rw [step_of_insn he hd]; exact exec_next_of_loaded he hl x
  | unknown off n w => exact ⟨_, step_of_unknown he hd⟩
  | badLength off b0 => exact ⟨_, step_of_badLength he hd⟩
  | truncated off need k => exact ⟨_, step_of_truncated he hd⟩

theorem Record.advance_pos {r : Record} (h : r.isTruncated = false) : 0 < r.advance := by
  cases r with
  | insn off n w x => exact n.bytes_pos
  | unknown off n w => exact n.bytes_pos
  | badLength off b0 => exact Nat.two_pos
  | truncated off need k => simp [Record.isTruncated] at h

/-- In a running scan, committing a record keeps the step enabled as long as the cursor stays below `len`. -/
theorem commit_enabled {s : State} (hrun : s.status = .running) {r : Record} {n : Nat}
    (hlt : s.cursor + n < s.len) : (commit r n s).Enabled :=
  ⟨by rw [commit_status, if_neg hlt.not_ge, hrun], hlt⟩

/-- Settles O46: an error record other than a truncation is committed like any other, so the next step is enabled at the
advanced cursor, and over a loaded buffer it appends its own record there. -/
theorem errorsAreIsolated : Obligations.ErrorsAreIsolated := by
  intro s t r h hout _ htrunc
  obtain ⟨⟨hrun, -⟩, -⟩ := step_cases h
  obtain ⟨need, rfl⟩ | ⟨q, hq, rfl⟩ := step_commits h
  · rw [raiseTruncated_out] at hout
    exact absurd (List.singleton_inj.1 (List.append_cancel_left hout)).symm (htrunc _ _ _)
  · refine ⟨Nat.lt_add_of_pos_right (Record.advance_pos hq), fun hlt => ?_⟩
    have he : (commit q q.advance s).Enabled := commit_enabled hrun hlt
    refine ⟨he, fun hl => ?_⟩
    obtain ⟨u, hu⟩ := step_next_of_loaded he hl
    obtain ⟨p, hp, hoff⟩ := step_appends hu
    exact ⟨u, p, hu, hp, hoff⟩

end Machine

end Sys2Proof
end

section
/-! PROOFS. The step at a word that a router recognizes (40_decode_step.md R104), and the rules of `c.li` and `c.mv`
(41_compressed.md R121, R122). -/

namespace Sys2Proof.Machine

open Claims

/-! ### The step at a recognized word -/

theorem decodeSized_of_insn {s : State} {i avail : Nat} {n : InsnLen} {w : Word} {x : Instr} (ha : n.bytes ≤ avail)
    (hw : s.memRead i n.bytes = some w.toNat) (hr : routeWord n w = some x) :
    decodeSized s n i avail = .ok (.insn i n w x, n.bytes) := by
  rw [decodeSized, if_neg ha.not_gt, hw]
  simp only [BitVec.ofNat_toNat, BitVec.setWidth_eq, hr]

/-- A form completes with the word that stands at the cursor. -/
theorem exec_eq_afterInsn {s : State} {w : Word} {x : Instr} (he : s.Enabled)
    (hw : s.memRead s.cursor x.length.bytes = some w.toNat) : exec x s = .next (afterInsn x.length w x s) := by
  rw [exec_eq_retire, retire_of he (bytes_le_avail hw) hw, BitVec.ofNat_toNat, BitVec.setWidth_eq,
    commit_eq_after he.1, afterInsn]

/-- A word that the router of its length recognizes emits its form wherever it stands. -/
theorem emitsForm_of_routeWord {w : Word} {x : Instr} (hc : classify (w.setWidth 8) = classOf x.length)
    (hr : routeWord x.length w = some x) : EmitsForm x.length w x := by
  intro s he hw
  have hd : decodeCore s s.cursor s.avail = .ok (.insn s.cursor x.length w x, x.length.bytes) := by
    rw [decodeCore_eq_decodeSized hw hc, decodeSized_of_insn (bytes_le_avail hw) hw hr]
  rw [step_of_insn he hd, exec_eq_afterInsn he hw]

/-! ### The step at a compressed word -/

theorem length_of_decodeC {w : Half} {x : Instr} (h : decodeC w = some x) : x.length = .two := by
  obtain ⟨-, rfl⟩ | ⟨-, rfl⟩ | ⟨-, rfl⟩ := decodeC_inv h <;> rfl

/-- The compressed forms stand in op 01 and op 10 only. -/
theorem op_ne_11_of_decodeC {w : Half} {x : Instr} (h : decodeC w = some x) : w.extractLsb' 0 2 ≠ 0b11#2 := by
  obtain ⟨hm, -⟩ | ⟨hm, -⟩ | ⟨hm, -⟩ := decodeC_inv h
  · simp [(matchesCAddi_iff.1 hm).1]
  · simp [(matchesCLi_iff.1 hm).1]
  · simp [(matchesCMv_iff.1 hm).1]

theorem emitsForm_of_decodeC {w : Half} {x : Instr} (h : decodeC w = some x) :
    EmitsForm .two (w.setWidth 32) x := by
  have hlen : x.length = .two := length_of_decodeC h
  rw [← hlen]
  apply emitsForm_of_routeWord
  · rw [hlen]; exact classify_low_byte_of_half (op_ne_11_of_decodeC h)
  · rw [hlen, routeWord_two_setWidth, h]

theorem emitsUnknown_of_decodeC {w : Half} (hop : w.extractLsb' 0 2 ≠ 0b11#2) (h : decodeC w = none) :
    EmitsUnknown .two (w.setWidth 32) :=
  emitsUnknown_of_routeWord (classify_low_byte_of_half hop) (by rw [routeWord_two_setWidth, h])

/-! ### c.li -/

/-- Exactly the words of R121 decode to `c.li`, with its operands in bit fields. -/
theorem decodeC_eq_cLi_iff {w : Half} {rd : RegIndex} {imm : BitVec 6} :
    decodeC w = some (.cLi rd imm) ↔
      MatchesCLi w ∧ rd = w.extractLsb' 7 5 ∧ imm = w.extractLsb' 12 1 ++ w.extractLsb' 2 5 := by
  rw [← rdOfC_eq_extract, ← immCI_eq_append]
  constructor
  · intro h
    obtain ⟨-, hx⟩ | ⟨hm, hx⟩ | ⟨-, hx⟩ := decodeC_inv h
    · cases hx
    · exact ⟨hm, Instr.cLi.inj hx⟩
    · cases hx
  · rintro ⟨hm, rfl, rfl⟩
    exact decodeC_ofCLi hm

/-- A joined number whose high bit is set is at least the weight of that bit. -/
theorem two_pow_le_toNat_one_append {n : Nat} (v : BitVec n) : 2 ^ n ≤ (1#1 ++ v).toNat := by
  rw [toNat_append_eq_add, BitVec.toNat_one Nat.one_pos, Nat.one_mul]
  exact Nat.le_add_right _ _

/-- Settles O18: the words that decode to `c.li` are those of its match condition; without a destination register op 01
and funct3 010 decode to nothing. -/
theorem cLiFollowsItsRule : Obligations.CLiFollowsItsRule := by
  refine ⟨fun w ⟨hop, hf⟩ hrd => ⟨?_, ?_⟩, fun w rd imm h => ?_, fun w ⟨hop, hf⟩ hrd => ?_, by decide, by decide,
    by decide⟩
  · exact emitsForm_of_decodeC (decodeC_eq_cLi_iff.2 ⟨matchesCLi_iff.2 ⟨hop, hf, hrd⟩, rfl, rfl⟩)
  · rw [toNat_append_eq_add, Nat.shiftLeft_eq, Nat.add_comm]
  · obtain ⟨hm, -, rfl⟩ := decodeC_eq_cLi_iff.1 h
    refine ⟨matchesCLi_iff.1 hm, fun hbit => ?_⟩
    rw [hbit]
    exact two_pow_le_toNat_one_append (w.extractLsb' 2 5)
  · exact emitsUnknown_of_decodeC (by simp [hop]) (decodeC_eq_none_of_op_01 hop (by simp [hf]) fun _ => hrd)

/-! ### c.mv -/

/-- Exactly the words of R122 decode to `c.mv`, with its operands in bit fields. -/
theorem decodeC_eq_cMv_iff {w : Half} {rd rs : RegIndex} :
    decodeC w = some (.cMv rd rs) ↔ MatchesCMv w ∧ rd = w.extractLsb' 7 5 ∧ rs = w.extractLsb' 2 5 := by
  rw [← rdOfC_eq_extract, ← rsOfC_eq_extract]
  constructor
  · intro h
    obtain ⟨-, hx⟩ | ⟨-, hx⟩ | ⟨hm, hx⟩ := decodeC_inv h
    · cases hx
    · cases hx
    · exact ⟨hm, Instr.cMv.inj hx⟩
  · rintro ⟨hm, rfl, rfl⟩
    exact decodeC_ofCMv hm

/-- Settles O19: the words that decode to `c.mv` are those of its match condition; each of the three corners fails a
conjunct of it, and op 10 holds no other form. -/
theorem cMvFollowsItsRule : Obligations.CMvFollowsItsRule := by
  refine ⟨fun w ⟨hop, hf⟩ hrs hrd hbit => ?_, fun w rd rs h => ?_, fun w ⟨hop, _⟩ hcorner => ?_, by decide, by decide⟩
  · exact emitsForm_of_decodeC (decodeC_eq_cMv_iff.2 ⟨matchesCMv_iff.2 ⟨hop, hf, hrs, hrd, hbit⟩, rfl, rfl⟩)
  · obtain ⟨hm, -, -⟩ := decodeC_eq_cMv_iff.1 h
    exact matchesCMv_iff.1 hm
  · have hmv : ¬MatchesCMv w := fun hm => by
      obtain ⟨-, -, hrs, hrd, hbit⟩ := matchesCMv_iff.1 hm
      obtain h0 | h0 | h1 := hcorner
      · exact hrs h0
      · exact hrd h0
      · exact absurd (hbit.symm.trans h1) (by decide)
    exact emitsUnknown_of_decodeC (by simp [hop]) (decodeC_eq_none_of_op_ne_01 (by simp [hop]) hmv)

end Sys2Proof.Machine
end

section
/-! PROOFS. The step at a standard word (40_decode_step.md R104), and the rules of `addi`, `sw` and `lw`
(42_integer_memory.md R130–R132). -/

namespace Sys2Proof.Machine

open Claims

/-! ### The step at a standard word -/

/-- The class of a standard word is that of its opcode: the classifier reads no bit above the fifth. -/
theorem classify_low_byte_eq_opcode (w : Word) :
    classify (w.setWidth 8) = classify ((w.extractLsb' 0 7).setWidth 8) := by
  have hbyte : (w.setWidth 8).toNat = w.toNat % 256 := BitVec.toNat_setWidth ..
  have hop : ((w.extractLsb' 0 7).setWidth 8).toNat = w.toNat % 128 := by
    rw [BitVec.toNat_setWidth_of_le (by decide), BitVec.extractLsb'_toNat, Nat.shiftRight_zero]
  have hlow : w.toNat % 256 % 4 = w.toNat % 128 % 4 := by omega
  have hmid : w.toNat % 256 / 4 % 8 = w.toNat % 128 / 4 % 8 := by omega
  rw [classify_eq, classify_eq, hbyte, hop, hlow, hmid]

/-- Every standard form stands in one of seven opcodes, all of the 4-byte class. -/
theorem classify_low_byte_of_decodeS {w : Word} {x : Instr} (h : decodeS w = some x) :
    classify (w.setWidth 8) = .len4 := by
  have hlen4 : ∀ op ∈ [0b0010011#7, 0b0100011#7, 0b0000011#7, 0b1100011#7, 0b1101111#7, 0b0110111#7, 0b1110011#7],
      classify (op.setWidth 8) = .len4 := by decide
  obtain ⟨-, hunlisted, -⟩ := standardUnknownSpace
  rw [classify_low_byte_eq_opcode]
  refine hlen4 _ (by_contra fun hop => ?_)
  rw [hunlisted w hop] at h
  cases h

theorem length_of_decodeS {w : Word} {x : Instr} (h : decodeS w = some x) : x.length = .four := by
  obtain ⟨-, rfl⟩ | ⟨-, rfl⟩ | ⟨-, rfl⟩ | ⟨-, rfl⟩ | ⟨-, rfl⟩ | ⟨-, rfl⟩ | ⟨-, rfl⟩ | ⟨-, rfl⟩ | ⟨-, rfl⟩ | ⟨-, rfl⟩ :=
    decodeS_inv h <;> rfl

theorem emitsForm_of_decodeS {w : Word} {x : Instr} (h : decodeS w = some x) : EmitsForm .four w x := by
  have hlen : x.length = .four := length_of_decodeS h
  rw [← hlen]
  apply emitsForm_of_routeWord
  · rw [hlen]; exact classify_low_byte_of_decodeS h
  · rw [hlen]; exact h

/-- A word in an opcode of the 4-byte class that decodes to no form emits `Unknown`. -/
theorem emitsUnknown_of_decodeS {w : Word} {op : BitVec 7} (hop : w.extractLsb' 0 7 = op)
    (hc : classify (op.setWidth 8) = .len4) (h : decodeS w = none) : EmitsUnknown .four w :=
  emitsUnknown_of_routeWord (by rw [classify_low_byte_eq_opcode, hop]; exact hc) h

/-! ### Which words decode to a form -/

/-- Each row of the standard router is taken exactly under its own condition: a form is decoded from the words of its
row and from no others. -/
theorem decodeS_eq_some_iff {w : Word} {x : Instr} : decodeS w = some x ↔
    (MatchesAddi w ∧ x = .addi (rdOf w) (rs1Of w) (immI w)) ∨
    (MatchesSw w ∧ x = .sw (rs2Of w) (rs1Of w) (immS w)) ∨
    (MatchesLw w ∧ x = .lw (rdOf w) (rs1Of w) (immI w)) ∨
    (MatchesBne w ∧ x = .bne (rs1Of w) (rs2Of w) (immB w)) ∨
    (MatchesBlt w ∧ x = .blt (rs1Of w) (rs2Of w) (immB w)) ∨
    (MatchesJal w ∧ x = .jal (rdOf w) (immJ w)) ∨
    (MatchesLui w ∧ x = .lui (rdOf w) (immU w)) ∨
    (MatchesCsrrs w ∧ x = .csrrs (rdOf w) (csrOf w) (rs1Of w)) ∨
    (MatchesWfi w ∧ x = .wfi) ∨
    (MatchesEcall w ∧ x = .ecall) := by
  refine ⟨decodeS_inv, ?_⟩
  rintro (⟨hm, rfl⟩ | ⟨hm, rfl⟩ | ⟨hm, rfl⟩ | ⟨hm, rfl⟩ | ⟨hm, rfl⟩ | ⟨hm, rfl⟩ | ⟨hm, rfl⟩ | ⟨hm, rfl⟩ | ⟨hm, rfl⟩ |
    ⟨hm, rfl⟩)
  exacts [decodeS_ofAddi hm, decodeS_ofSw hm, decodeS_ofLw hm, decodeS_ofBne hm, decodeS_ofBlt hm, decodeS_ofJal hm,
    decodeS_ofLui hm, decodeS_ofCsrrs hm, decodeS_ofWfi hm, decodeS_ofEcall hm]

/-! ### addi -/

/-- Exactly the words of R130 decode to `addi`, with its operands in bit fields. -/
theorem decodeS_eq_addi_iff {w : Word} {rd rs1 : RegIndex} {imm : Int} :
    decodeS w = some (.addi rd rs1 imm) ↔ MatchesAddi w ∧
      rd = w.extractLsb' 7 5 ∧ rs1 = w.extractLsb' 15 5 ∧ imm = (w.extractLsb' 20 12).toInt := by
  rw [← rdOf_eq_extract, ← rs1Of_eq_extract, ← immI_eq_toInt, decodeS_eq_some_iff]
  simp only [reduceCtorEq, and_false, or_false, Instr.addi.injEq]

/-- Settles O20: the words that decode to `addi` are those of its match condition, and its opcode holds no other form. -/
theorem addiFollowsItsRule : Obligations.AddiFollowsItsRule := by
  obtain ⟨-, -, hunknown, -⟩ := standardUnknownSpace
  refine ⟨fun w hop hf => ?_, fun w rd rs1 imm h => ?_, fun w hop hf => ?_, by decide, by decide, by decide, by decide,
    by decide⟩
  · exact emitsForm_of_decodeS (decodeS_eq_addi_iff.2 ⟨matchesAddi_iff.2 ⟨hop, hf⟩, rfl, rfl, rfl⟩)
  · exact matchesAddi_iff.1 (decodeS_eq_addi_iff.1 h).1
  · exact emitsUnknown_of_decodeS hop (by decide) (hunknown w hop hf)

/-! ### sw -/

/-- Exactly the words of R131 decode to `sw`, with its operands in bit fields. -/
theorem decodeS_eq_sw_iff {w : Word} {rs2 rs1 : RegIndex} {imm : Int} :
    decodeS w = some (.sw rs2 rs1 imm) ↔ MatchesSw w ∧ rs2 = w.extractLsb' 20 5 ∧ rs1 = w.extractLsb' 15 5 ∧
      imm = (w.extractLsb' 25 7 ++ w.extractLsb' 7 5).toInt := by
  rw [← rs2Of_eq_extract, ← rs1Of_eq_extract, ← immS_eq_toInt, decodeS_eq_some_iff]
  simp only [reduceCtorEq, and_false, or_false, false_or, Instr.sw.injEq]

/-- The sign of the joined S-offset is the top bit of the word. -/
theorem toInt_joined_offset_neg {w : Word} (h : w.getLsbD 31 = true) :
    (w.extractLsb' 25 7 ++ w.extractLsb' 7 5).toInt < 0 := by
  apply BitVec.toInt_neg_of_msb_true
  rw [BitVec.msb_append, if_neg (by decide), BitVec.msb_eq_getLsbD_last, BitVec.getLsbD_extractLsb', h]
  rfl

/-- Settles O21: the words that decode to `sw` are those of its match condition, its opcode holds no other form, and the
top bit of the word is the sign of the offset. -/
theorem swFollowsItsRule : Obligations.SwFollowsItsRule := by
  obtain ⟨-, -, -, hunknown, -⟩ := standardUnknownSpace
  refine ⟨fun w hop hf => ?_, fun w rs2 rs1 imm h => ?_, fun w hop hf => ?_, fun w rs2 rs1 imm h htop => ?_, by decide,
    by decide⟩
  · exact emitsForm_of_decodeS (decodeS_eq_sw_iff.2 ⟨matchesSw_iff.2 ⟨hop, hf⟩, rfl, rfl, rfl⟩)
  · exact matchesSw_iff.1 (decodeS_eq_sw_iff.1 h).1
  · exact emitsUnknown_of_decodeS hop (by decide) (hunknown w hop hf)
  · obtain ⟨-, -, -, rfl⟩ := decodeS_eq_sw_iff.1 h
    exact toInt_joined_offset_neg htop

/-! ### lw -/

/-- Exactly the words of R132 decode to `lw`, with its operands in bit fields. -/
theorem decodeS_eq_lw_iff {w : Word} {rd rs1 : RegIndex} {imm : Int} :
    decodeS w = some (.lw rd rs1 imm) ↔ MatchesLw w ∧
      rd = w.extractLsb' 7 5 ∧ rs1 = w.extractLsb' 15 5 ∧ imm = (w.extractLsb' 20 12).toInt := by
  rw [← rdOf_eq_extract, ← rs1Of_eq_extract, ← immI_eq_toInt, decodeS_eq_some_iff]
  simp only [reduceCtorEq, and_false, or_false, false_or, Instr.lw.injEq]

/-- Settles O22: the words that decode to `lw` are those of its match condition, and its opcode holds no other form; the
two texts are the renderer's own rows. -/
theorem lwFollowsItsRule : Obligations.LwFollowsItsRule := by
  obtain ⟨-, -, -, -, hunknown, -⟩ := standardUnknownSpace
  refine ⟨fun w hop hf => ?_, fun w rd rs1 imm h => ?_, fun w hop hf => ?_, fun w r b imm => ⟨rfl, rfl⟩, by decide⟩
  · exact emitsForm_of_decodeS (decodeS_eq_lw_iff.2 ⟨matchesLw_iff.2 ⟨hop, hf⟩, rfl, rfl, rfl⟩)
  · exact matchesLw_iff.1 (decodeS_eq_lw_iff.1 h).1
  · exact emitsUnknown_of_decodeS hop (by decide) (hunknown w hop hf)

end Sys2Proof.Machine
end

section
/-! PROOFS. The rules of `bne`, `blt` and `jal` (43_control_transfer.md R140–R142): an offset whose bit 0 is not encoded
is twice its encoded part, which fixes its evenness and its range. -/

namespace Sys2Proof

open Claims

/-! ### Offsets whose bit 0 is not encoded -/

/-- A nonempty part with a zero bit after it reads as twice the part. -/
theorem toInt_append_zero_bit_even_and_range {m : Nat} (hm : 0 < m) (x : BitVec m) :
    (x ++ 0#1).toInt % 2 = 0 ∧ -2 ^ m ≤ (x ++ 0#1).toInt ∧ (x ++ 0#1).toInt ≤ 2 ^ m - 2 := by
  have htwice : (x ++ 0#1).toInt = 2 * x.toInt := by rw [BitVec.toInt_append_zero, pow_one, mul_comm]
  have hlo : -2 ^ m ≤ 2 * x.toInt := x.le_two_mul_toInt
  have hhi : 2 * x.toInt < 2 ^ m := x.two_mul_toInt_lt
  have heven : (2 : Int) ∣ 2 ^ m := dvd_pow_self 2 hm.ne'
  omega

/-- R77: the B-immediate is twice a 12-bit number. -/
theorem immB_even_and_range (w : Word) : immB w % 2 = 0 ∧ -4096 ≤ immB w ∧ immB w ≤ 4094 := by
  rw [immB_eq_toInt]
  exact toInt_append_zero_bit_even_and_range (m := 12) (by decide) _

/-- R78: the J-immediate is twice a 20-bit number. -/
theorem immJ_even_and_range (w : Word) : immJ w % 2 = 0 ∧ -1048576 ≤ immJ w ∧ immJ w ≤ 1048574 := by
  rw [immJ_eq_toInt]
  exact toInt_append_zero_bit_even_and_range (m := 20) (by decide) _

namespace Machine

/-! ### bne and blt -/

/-- Exactly the words of R140 decode to `bne`, with its operands. -/
theorem decodeS_eq_bne_iff {w : Word} {rs1 rs2 : RegIndex} {imm : Int} :
    decodeS w = some (.bne rs1 rs2 imm) ↔ MatchesBne w ∧
      rs1 = w.extractLsb' 15 5 ∧ rs2 = w.extractLsb' 20 5 ∧ imm = immB w := by
  rw [← rs1Of_eq_extract, ← rs2Of_eq_extract, decodeS_eq_some_iff]
  simp only [reduceCtorEq, and_false, or_false, false_or, Instr.bne.injEq]

/-- Exactly the words of R141 decode to `blt`, with its operands. -/
theorem decodeS_eq_blt_iff {w : Word} {rs1 rs2 : RegIndex} {imm : Int} :
    decodeS w = some (.blt rs1 rs2 imm) ↔ MatchesBlt w ∧
      rs1 = w.extractLsb' 15 5 ∧ rs2 = w.extractLsb' 20 5 ∧ imm = immB w := by
  rw [← rs1Of_eq_extract, ← rs2Of_eq_extract, decodeS_eq_some_iff]
  simp only [reduceCtorEq, and_false, or_false, false_or, Instr.blt.injEq]

/-- The branches that R140 lists as corner cases (`beq`, `bge`, `bltu`, `bgeu`) are neither `bne` nor `blt`, and the
opcode holds no other form. -/
theorem emitsUnknown_of_other_branch {w : Word} (hop : w.extractLsb' 0 7 = 0b1100011#7)
    (hf : w.extractLsb' 12 3 ∈ [0b000#3, 0b101#3, 0b110#3, 0b111#3]) : EmitsUnknown .four w := by
  have hneither : ∀ f ∈ [0b000#3, 0b101#3, 0b110#3, 0b111#3], f ≠ 0b001#3 ∧ f ≠ 0b100#3 := by decide
  obtain ⟨-, -, -, -, -, hunknown, -⟩ := standardUnknownSpace
  obtain ⟨hbne, hblt⟩ := hneither _ hf
  exact emitsUnknown_of_decodeS hop (by decide) (hunknown w hop hbne hblt)

/-- Settles O23: the words that decode to `bne` are those of its match condition, and its offset is the B-immediate. -/
theorem bneFollowsItsRule : Obligations.BneFollowsItsRule := by
  refine ⟨fun w hop hf => ?_, fun w rs1 rs2 imm h => ?_, fun w => emitsUnknown_of_other_branch,
    fun w rs1 rs2 imm h => ?_, by decide, by decide, by decide⟩
  · rw [← immB_eq_toInt]
    exact emitsForm_of_decodeS (decodeS_eq_bne_iff.2 ⟨matchesBne_iff.2 ⟨hop, hf⟩, rfl, rfl, rfl⟩)
  · exact matchesBne_iff.1 (decodeS_eq_bne_iff.1 h).1
  · obtain ⟨-, -, -, rfl⟩ := decodeS_eq_bne_iff.1 h
    exact immB_even_and_range w

/-- Settles O24: the words that decode to `blt` are those of its match condition, and its offset is the B-immediate. -/
theorem bltFollowsItsRule : Obligations.BltFollowsItsRule := by
  refine ⟨fun w hop hf => ?_, fun w rs1 rs2 imm h => ?_, fun w => emitsUnknown_of_other_branch,
    fun w rs1 rs2 imm h => ?_, by decide, by decide, by decide⟩
  · rw [← immB_eq_toInt]
    exact emitsForm_of_decodeS (decodeS_eq_blt_iff.2 ⟨matchesBlt_iff.2 ⟨hop, hf⟩, rfl, rfl, rfl⟩)
  · exact matchesBlt_iff.1 (decodeS_eq_blt_iff.1 h).1
  · obtain ⟨-, -, -, rfl⟩ := decodeS_eq_blt_iff.1 h
    exact immB_even_and_range w

/-! ### jal -/

/-- Exactly the words of R142 decode to `jal`, with its operands. -/
theorem decodeS_eq_jal_iff {w : Word} {rd : RegIndex} {imm : Int} :
    decodeS w = some (.jal rd imm) ↔ MatchesJal w ∧ rd = w.extractLsb' 7 5 ∧ imm = immJ w := by
  rw [← rdOf_eq_extract, decodeS_eq_some_iff]
  simp only [reduceCtorEq, and_false, or_false, false_or, Instr.jal.injEq]

/-- Settles O25: the words that decode to `jal` are those of its opcode, and its offset is the J-immediate. -/
theorem jalFollowsItsRule : Obligations.JalFollowsItsRule := by
  refine ⟨fun w hop => ?_, fun w rd imm h => ?_, fun w rd imm h => ?_, by decide, by decide, by decide, by decide⟩
  · rw [← immJ_eq_toInt]
    exact emitsForm_of_decodeS (decodeS_eq_jal_iff.2 ⟨matchesJal_iff.2 hop, rfl, rfl⟩)
  · exact matchesJal_iff.1 (decodeS_eq_jal_iff.1 h).1
  · obtain ⟨-, -, rfl⟩ := decodeS_eq_jal_iff.1 h
    exact immJ_even_and_range w

end Machine

end Sys2Proof
end

section
/-! PROOFS. The rule of `lui` (44_upper_immediate.md R150): its operand is the 20-bit field itself, so the range is that of
a 20-bit number, with no bit shifted in below it. -/

namespace Sys2Proof

open Claims

/-- R79: the U-immediate is a 20-bit two's-complement number. -/
theorem immU_range (w : Word) : -524288 ≤ immU w ∧ immU w ≤ 524287 := by
  rw [immU_eq_toInt]
  exact ⟨BitVec.le_toInt _, Int.le_of_lt_add_one (BitVec.toInt_lt (w := 20))⟩

namespace Machine

/-- Exactly the words of R150 decode to `lui`, with its operands. -/
theorem decodeS_eq_lui_iff {w : Word} {rd : RegIndex} {imm : Int} :
    decodeS w = some (.lui rd imm) ↔ MatchesLui w ∧ rd = w.extractLsb' 7 5 ∧ imm = immU w := by
  rw [← rdOf_eq_extract, decodeS_eq_some_iff]
  simp only [reduceCtorEq, and_false, or_false, false_or, Instr.lui.injEq]

/-- Settles O26: the words that decode to `lui` are those of its opcode, its operand is the U-immediate, and the opcode of
`auipc` is in no row of the map. -/
theorem luiFollowsItsRule : Obligations.LuiFollowsItsRule := by
  obtain ⟨-, hunlisted, -⟩ := standardUnknownSpace
  refine ⟨fun w hop => ?_, fun w rd imm h => ?_, fun w hop => ?_, fun w rd imm h => ?_, by decide, by decide, by decide,
    by decide, by decide⟩
  · rw [← immU_eq_toInt]
    exact emitsForm_of_decodeS (decodeS_eq_lui_iff.2 ⟨matchesLui_iff.2 hop, rfl, rfl⟩)
  · exact matchesLui_iff.1 (decodeS_eq_lui_iff.1 h).1
  · exact emitsUnknown_of_decodeS hop (by decide) (hunlisted w (by rw [hop]; decide))
  · obtain ⟨-, -, rfl⟩ := decodeS_eq_lui_iff.1 h
    exact immU_range w

end Machine

end Sys2Proof
end

section
/-! PROOFS. The rules of `csrrs`, `wfi` and `ecall` (45_system.md R160–R162): in the SYSTEM opcode funct3 010 is `csrrs`
whatever the address, funct3 000 holds the two exact words, and every other word is `Unknown`. -/

namespace Sys2Proof

open Claims
open BitVec (extractLsb'_append_eq_of_le extractLsb'_append_eq_left extractLsb'_append_eq_right)

/-! ### The fields of an encoded format I word -/

/-- R67: each field of format I stands at its place, the top one the whole 12-bit field. -/
theorem encodeI_fields (imm : BitVec 12) (rs1 : RegIndex) (funct3 : BitVec 3) (rd : RegIndex) (opcode : BitVec 7) :
    (encodeI imm rs1 funct3 rd opcode).extractLsb' 0 7 = opcode ∧
    (encodeI imm rs1 funct3 rd opcode).extractLsb' 7 5 = rd ∧
    (encodeI imm rs1 funct3 rd opcode).extractLsb' 12 3 = funct3 ∧
    (encodeI imm rs1 funct3 rd opcode).extractLsb' 15 5 = rs1 ∧
    (encodeI imm rs1 funct3 rd opcode).extractLsb' 20 12 = imm := by
  unfold encodeI
  refine ⟨extractLsb'_append_eq_right, ?_, ?_, ?_, ?_⟩
  · rw [extractLsb'_append_eq_of_le (by decide)]
    exact extractLsb'_append_eq_right
  · rw [extractLsb'_append_eq_of_le (by decide), extractLsb'_append_eq_of_le (by decide)]
    exact extractLsb'_append_eq_right
  · rw [extractLsb'_append_eq_of_le (by decide), extractLsb'_append_eq_of_le (by decide),
      extractLsb'_append_eq_of_le (by decide)]
    exact extractLsb'_append_eq_right
  · rw [extractLsb'_append_eq_of_le (by decide), extractLsb'_append_eq_of_le (by decide),
      extractLsb'_append_eq_of_le (by decide)]
    exact extractLsb'_append_eq_left

namespace Machine

/-- In the SYSTEM opcode a word that is neither `csrrs` nor one of the two exact words emits `Unknown`. -/
theorem emitsUnknown_of_system {w : Word} (hop : w.extractLsb' 0 7 = 0b1110011#7) (hf : w.extractLsb' 12 3 ≠ 0b010#3)
    (hwfi : w ≠ 0x10500073#32) (hecall : w ≠ 0x00000073#32) : EmitsUnknown .four w :=
  emitsUnknown_of_decodeS hop (by decide) ((decodeS_eq_none_iff_of_system hop).2 ⟨hf, hwfi, hecall⟩)

/-- In funct3 000 of the SYSTEM opcode only the two exact words are recognized: there is no `csrrs` to exclude. -/
theorem emitsUnknown_of_system_funct3_zero {w : Word} (hop : w.extractLsb' 0 7 = 0b1110011#7)
    (hf : w.extractLsb' 12 3 = 0b000#3) (hwfi : w ≠ 0x10500073#32) (hecall : w ≠ 0x00000073#32) :
    EmitsUnknown .four w :=
  emitsUnknown_of_system hop (by simp [hf]) hwfi hecall

/-! ### csrrs -/

/-- Exactly the words of R160 decode to `csrrs`, with its operands in bit fields. -/
theorem decodeS_eq_csrrs_iff {w : Word} {rd rs1 : RegIndex} {csr : CsrAddr} :
    decodeS w = some (.csrrs rd csr rs1) ↔ MatchesCsrrs w ∧
      rd = w.extractLsb' 7 5 ∧ csr = w.extractLsb' 20 12 ∧ rs1 = w.extractLsb' 15 5 := by
  rw [← rdOf_eq_extract, ← csrOf_eq_extract, ← rs1Of_eq_extract, decodeS_eq_some_iff]
  simp only [reduceCtorEq, and_false, or_false, false_or, Instr.csrrs.injEq]

/-- R235: no address is excluded, since the address is no part of the match condition. -/
theorem decodeS_encodeI_csrrs (rd rs1 : RegIndex) (csr : CsrAddr) :
    decodeS (encodeI csr rs1 0b010#3 rd 0b1110011#7) = some (.csrrs rd csr rs1) := by
  obtain ⟨hop, hrd, hf, hrs1, hcsr⟩ := encodeI_fields csr rs1 0b010#3 rd 0b1110011#7
  exact decodeS_eq_csrrs_iff.2 ⟨matchesCsrrs_iff.2 ⟨hop, hf⟩, hrd.symm, hcsr.symm, hrs1.symm⟩

/-- The SYSTEM words that R160 lists as corner cases have neither the funct3 of `csrrs` nor that of the exact words. -/
theorem emitsUnknown_of_other_csr_form {w : Word} (hop : w.extractLsb' 0 7 = 0b1110011#7)
    (hf : w.extractLsb' 12 3 ∈ [0b001#3, 0b011#3, 0b101#3, 0b110#3, 0b111#3]) : EmitsUnknown .four w := by
  have hneither : ∀ f ∈ [0b001#3, 0b011#3, 0b101#3, 0b110#3, 0b111#3], f ≠ 0b010#3 ∧ f ≠ 0b000#3 := by decide
  obtain ⟨hcsrrs, hzero⟩ := hneither _ hf
  refine emitsUnknown_of_system hop hcsrrs (fun hwfi => hzero ?_) (fun hecall => hzero ?_)
  · rw [hwfi]; decide
  · rw [hecall]; decide

/-- R182: the name lookup answers for every address. -/
theorem csrText_total (a : CsrAddr) :
    (∃ n, Config.csrName a = some n ∧ csrText a = n) ∨ (Config.csrName a = none ∧ csrText a = "(unknown)") := by
  unfold csrText
  cases Config.csrName a with
  | some n => exact .inl ⟨n, rfl, rfl⟩
  | none => exact .inr ⟨rfl, rfl⟩

/-- Settles O27: the words that decode to `csrrs` are those of its match condition, which leaves the address free. -/
theorem csrrsFollowsItsRule : Obligations.CsrrsFollowsItsRule := by
  refine ⟨fun w hop hf => ?_, fun w rd csr rs1 h => ?_, fun w => emitsUnknown_of_other_csr_form, fun a => ?_,
    csrText_total, by decide, by decide⟩
  · exact emitsForm_of_decodeS (decodeS_eq_csrrs_iff.2 ⟨matchesCsrrs_iff.2 ⟨hop, hf⟩, rfl, rfl, rfl⟩)
  · exact matchesCsrrs_iff.1 (decodeS_eq_csrrs_iff.1 h).1
  · exact ⟨_, 0, 0, decodeS_encodeI_csrrs 0 0 a⟩

/-! ### wfi -/

/-- Exactly one word decodes to `wfi`. -/
theorem decodeS_eq_wfi_iff {w : Word} : decodeS w = some .wfi ↔ w = 0x10500073#32 := by
  rw [decodeS_eq_some_iff]
  simp only [reduceCtorEq, and_false, or_false, false_or, and_true]

/-- Settles O28: the match condition of `wfi` is one word, and the step at a recognized word advances by its length. -/
theorem wfiFollowsItsRule : Obligations.WfiFollowsItsRule :=
  ⟨fun _ hw => emitsForm_of_decodeS (decodeS_eq_wfi_iff.2 hw), fun _ => decodeS_eq_wfi_iff.1,
    fun _ => emitsUnknown_of_system_funct3_zero, decodeS_eq_wfi_iff.2 rfl, by decide⟩

/-! ### ecall -/

/-- Exactly one word decodes to `ecall`. -/
theorem decodeS_eq_ecall_iff {w : Word} : decodeS w = some .ecall ↔ w = 0x00000073#32 := by
  rw [decodeS_eq_some_iff]
  simp only [reduceCtorEq, and_false, false_or, and_true]

/-- Settles O29: the match condition of `ecall` is one word, and the step at a recognized word gives a next state with
its record, never a fault. -/
theorem ecallFollowsItsRule : Obligations.EcallFollowsItsRule :=
  ⟨fun _ hw => emitsForm_of_decodeS (decodeS_eq_ecall_iff.2 hw), fun _ => decodeS_eq_ecall_iff.1,
    fun _ => emitsUnknown_of_system_funct3_zero, decodeS_eq_ecall_iff.2 rfl, by decide, by decide, by decide,
    by decide⟩

end Machine

end Sys2Proof
end

section
/-! PROOFS. The error conditions that do not end the scan (60_exceptions.md R232, R234): an unsupported length and a word
that no form matches. -/

namespace Sys2Proof.Machine

open Claims

/-- R45: the byte at the offset of a word is the word's low byte. -/
theorem byte_eq_low_byte_of_memRead {s : State} {i : Nat} {b0 : Byte} {n : InsnLen} {w : Word}
    (hb : s.byteAt i = some b0) (hw : s.memRead i n.bytes = some w.toNat) : b0 = w.setWidth 8 := by
  have hlow : s.byteAt i = some (BitVec.ofNat 8 w.toNat) := by
    cases n <;> exact byteAt_of_memRead hw
  rw [hb, BitVec.ofNat_toNat] at hlow
  exact Option.some.inj hlow

/-- Settles O44: the classified byte is the word's low byte, so the word alone fixes what the step emits there. -/
theorem unknownWordAdvances : Obligations.UnknownWordAdvances := by
  intro s b0 n w he hb hc hw hr
  obtain rfl := byte_eq_low_byte_of_memRead hb hw
  exact emitsUnknown_of_routeWord hc hr s he hw

/-- Settles O42: the byte's class alone gives the step, with no other byte assumed loaded, and whether the cursor after the
skip has reached `len` gives the status. -/
theorem unsupportedLengthSkipsTwo : Obligations.UnsupportedLengthSkipsTwo := by
  intro s b0 he hb hc
  refine ⟨_, step_at_bad he hb hc, rfl, rfl, rfl, rfl, fun hlt => ?_, fun hle => ?_⟩
  · exact if_neg hlt.not_ge
  · exact if_pos hle

end Sys2Proof.Machine
end

section
/-! PROOFS. Every form that a router gives is well-formed (10_state.md R27), and the record of the decode core said
once: its kinds, its range and its end (40_decode_step.md R101; 10_state.md R26). -/

namespace Sys2Proof

open Claims Machine

/-! ### Routed forms -/

theorem decodeC_wellFormed {w : Half} {x : Instr} (h : decodeC w = some x) : x.wellFormed = true := by
  obtain ⟨-, rfl⟩ | ⟨hm, rfl⟩ | ⟨hm, rfl⟩ := decodeC_inv h
  · rfl
  · obtain ⟨-, -, hrd⟩ := matchesCLi_iff.1 hm
    rw [rdOfC_eq_extract]
    exact decide_eq_true hrd
  · obtain ⟨-, -, hrs, hrd, -⟩ := matchesCMv_iff.1 hm
    rw [rdOfC_eq_extract, rsOfC_eq_extract]
    exact decide_eq_true ⟨hrd, hrs⟩

theorem immI_range (w : Word) : ImmOk12 (immI w) := by
  rw [immI_eq_toInt]
  exact toInt_mem_range12 _

theorem immS_range (w : Word) : ImmOk12 (immS w) := by
  rw [immS_eq_toInt]
  exact toInt_mem_range12 _

theorem immB_ok (w : Word) : ImmOkBranch (immB w) := by
  obtain ⟨heven, hlo, hhi⟩ := immB_even_and_range w
  exact ⟨hlo, hhi, heven⟩

theorem immJ_ok (w : Word) : ImmOkJump (immJ w) := by
  obtain ⟨heven, hlo, hhi⟩ := immJ_even_and_range w
  exact ⟨hlo, hhi, heven⟩

theorem decodeS_wellFormed {w : Word} {x : Instr} (h : decodeS w = some x) : x.wellFormed = true := by
  obtain ⟨-, rfl⟩ | ⟨-, rfl⟩ | ⟨-, rfl⟩ | ⟨-, rfl⟩ | ⟨-, rfl⟩ | ⟨-, rfl⟩ | ⟨-, rfl⟩ | ⟨-, rfl⟩ | ⟨-, rfl⟩ | ⟨-, rfl⟩ :=
    decodeS_inv h
  · exact decide_eq_true (immI_range w)
  · exact decide_eq_true (immS_range w)
  · exact decide_eq_true (immI_range w)
  · exact decide_eq_true (immB_ok w)
  · exact decide_eq_true (immB_ok w)
  · exact decide_eq_true (immJ_ok w)
  · exact decide_eq_true (immU_range w)
  · rfl
  · rfl
  · rfl

/-- Settles O54: each router gives forms of its own length, with operands in the ranges of their fields. -/
theorem decodedFormsAreWellFormed : Obligations.DecodedFormsAreWellFormed := by
  intro n w x h
  cases n with
  | two => exact ⟨length_of_decodeC h, decodeC_wellFormed h⟩
  | four => exact ⟨length_of_decodeS h, decodeS_wellFormed h⟩

namespace Machine

/-! ### The decode core, by the class of the first byte -/

/-- A byte has an unsupported length or the class of one of the two lengths. -/
theorem classify_bad_or_classOf (b0 : Byte) : classify b0 = .bad ∨ ∃ n, classify b0 = classOf n := by
  cases classify b0 with
  | len2 => exact .inr ⟨.two, rfl⟩
  | len4 => exact .inr ⟨.four, rfl⟩
  | bad => exact .inl rfl

theorem decodeCore_of_bad {s : State} {i : Nat} {b0 : Byte} (avail : Nat) (hb : s.byteAt i = some b0)
    (hc : classify b0 = .bad) : decodeCore s i avail = .ok (.badLength i b0, 2) := by
  rw [decodeCore_of_byte avail hb, hc]

theorem decodeCore_of_classOf {s : State} {i : Nat} {b0 : Byte} {n : InsnLen} (avail : Nat)
    (hb : s.byteAt i = some b0) (hc : classify b0 = classOf n) :
    decodeCore s i avail = decodeSized s n i avail := by
  rw [decodeCore_of_byte avail hb, hc]
  cases n <;> rfl

theorem decodeSized_of_truncated {s : State} {i avail : Nat} {n : InsnLen} (ha : avail < n.bytes) :
    decodeSized s n i avail = .ok (.truncated i n avail, 0) := if_pos ha

/-- A value that was read fits in a word. -/
theorem exists_word_of_memRead {s : State} {i v : Nat} {n : InsnLen} (h : s.memRead i n.bytes = some v) :
    ∃ w : Word, w = BitVec.ofNat 32 v ∧ w.toNat = v ∧ w.toNat < 2 ^ (8 * n.bytes) := by
  have hlt : v < 2 ^ (8 * n.bytes) := memRead_lt h
  have hwide : 2 ^ (8 * n.bytes) ≤ 2 ^ 32 := by cases n <;> decide
  have hv : (BitVec.ofNat 32 v).toNat = v := Nat.mod_eq_of_lt (hlt.trans_le hwide)
  exact ⟨_, rfl, hv, hv.symm ▸ hlt⟩

/-- What the record of a classified length can be, with the word that was read. -/
theorem decodeSized_record {s : State} {n : InsnLen} {i avail adv : Nat} {r : Record}
    (h : decodeSized s n i avail = .ok (r, adv)) : (avail < n.bytes ∧ r = .truncated i n avail) ∨
      (n.bytes ≤ avail ∧ ∃ w : Word, s.memRead i n.bytes = some w.toNat ∧ w.toNat < 2 ^ (8 * n.bytes) ∧
        ((∃ x, routeWord n w = some x ∧ r = .insn i n w x) ∨ (routeWord n w = none ∧ r = .unknown i n w))) := by
  obtain ⟨ha, hr, -⟩ | ⟨ha, -, v, hv, hroute⟩ := decodeSized_cases h
  · exact .inl ⟨ha, hr⟩
  · obtain ⟨w, rfl, htoNat, hlt⟩ := exists_word_of_memRead hv
    exact .inr ⟨ha, _, htoNat.symm ▸ hv, hlt, hroute⟩

/-- What the record of the decode core can be. -/
theorem decodeCore_record {s : State} {i avail adv : Nat} {r : Record} (h : decodeCore s i avail = .ok (r, adv)) :
    (∃ b0, classify b0 = .bad ∧ r = .badLength i b0) ∨
    ∃ n : InsnLen, (avail < n.bytes ∧ r = .truncated i n avail) ∨
      (n.bytes ≤ avail ∧ ∃ w : Word, s.memRead i n.bytes = some w.toNat ∧ w.toNat < 2 ^ (8 * n.bytes) ∧
        ((∃ x, routeWord n w = some x ∧ r = .insn i n w x) ∨ (routeWord n w = none ∧ r = .unknown i n w))) := by
  obtain ⟨b0, -, ⟨hc, hp⟩ | ⟨-, hs⟩ | ⟨-, hs⟩⟩ := decodeCore_cases h
  · cases hp
    exact .inl ⟨b0, hc, rfl⟩
  · exact .inr ⟨.two, decodeSized_record hs⟩
  · exact .inr ⟨.four, decodeSized_record hs⟩

/-- The core's record has the component ranges of R26. -/
theorem decodeCore_wellFormed {s : State} {i adv : Nat} {r : Record} (hi : i < s.len)
    (h : decodeCore s i (s.len - i) = .ok (r, adv)) : r.wellFormed = true := by
  obtain ⟨b0, hc, rfl⟩ | ⟨n, ⟨ha, rfl⟩ | ⟨-, w, -, hlt, ⟨x, hx, rfl⟩ | ⟨-, rfl⟩⟩⟩ := decodeCore_record h
  · exact decide_eq_true hc
  · exact decide_eq_true ⟨Nat.sub_pos_of_lt hi, ha⟩
  · obtain ⟨hlen, hwf⟩ := decodedFormsAreWellFormed n w x hx
    simp [Record.wellFormed, hlen, hwf, hlt]
  · exact decide_eq_true hlt

/-- A record ends inside the buffer, unless it is an unsupported length. -/
theorem decodeCore_end_le {s : State} {i adv : Nat} {r : Record} (hi : i < s.len)
    (h : decodeCore s i (s.len - i) = .ok (r, adv)) :
    i + r.advance ≤ s.len ∨ ∃ b0, r = .badLength i b0 := by
  obtain ⟨b0, -, rfl⟩ | ⟨n, ⟨-, rfl⟩ | ⟨ha, w, -, -, ⟨x, -, rfl⟩ | ⟨-, rfl⟩⟩⟩ := decodeCore_record h
  · exact .inr ⟨b0, rfl⟩
  · exact .inl hi.le
  · exact .inl (Nat.add_le_of_le_sub' hi.le ha)
  · exact .inl (Nat.add_le_of_le_sub' hi.le ha)

/-! ### The step, by the record of the decode core -/

/-- The state after a record (R104): the final status after a truncation, the record's advance after any other. -/
def State.afterRecord (s : State) (r : Record) : State :=
  if r.isTruncated then { emit r s with status := .truncated } else commit r r.advance s

@[simp] theorem afterRecord_buf (s : State) (r : Record) : (s.afterRecord r).buf = s.buf := by
  cases r <;> rfl

@[simp] theorem afterRecord_len (s : State) (r : Record) : (s.afterRecord r).len = s.len := by
  cases r <;> rfl

@[simp] theorem afterRecord_out (s : State) (r : Record) : (s.afterRecord r).out = s.out ++ [r] := by
  cases r <;> rfl

@[simp] theorem afterRecord_cursor (s : State) (r : Record) : (s.afterRecord r).cursor = s.cursor + r.advance := by
  cases r <;> rfl

theorem afterRecord_status (s : State) (r : Record) : (s.afterRecord r).status =
    if r.isTruncated then .truncated else if s.len ≤ s.cursor + r.advance then .done else s.status := by
  cases r <;> rfl

theorem step_of_not_enabled {s : State} (he : ¬s.Enabled) : step s = .fault .noStepEnabled := by
  simp only [step, fetch, if_neg he]

theorem step_of_error {s : State} {f : Fault} (he : s.Enabled) (hd : decodeCore s s.cursor s.avail = .error f) :
    step s = .fault f := by
  simp only [step, fetch, if_pos he, hd]

/-- Where the decode core answers, the step gives the state after its record. -/
theorem step_of_decode {s : State} {r : Record} {adv : Nat} (he : s.Enabled)
    (hd : decodeCore s s.cursor s.avail = .ok (r, adv)) : step s = .next (s.afterRecord r) := by
  have hadv : adv = r.advance := decodeCore_adv hd
  obtain ⟨b0, -, rfl⟩ | ⟨n, ⟨-, rfl⟩ | ⟨-, w, hw, -, ⟨x, hx, rfl⟩ | ⟨-, rfl⟩⟩⟩ := decodeCore_record hd
  · exact step_of_badLength he hd
  · exact step_of_truncated he hd
  · obtain ⟨rfl, -⟩ := decodedFormsAreWellFormed n w x hx
    rw [step_of_insn he hd, exec_eq_afterInsn he hw, afterInsn, ← commit_eq_after he.1]
    rfl
  · rw [step_of_unknown he hd, hadv]
    rfl

/-- A step that gives a next state was enabled, and the state is the one after the record of the decode core. -/
theorem step_next_inv {s t : State} (h : step s = .next t) :
    s.Enabled ∧ ∃ r, decodeCore s s.cursor s.avail = .ok (r, r.advance) ∧ t = s.afterRecord r := by
  obtain ⟨he, r, adv, hd, -⟩ := step_cases h
  obtain rfl := decodeCore_adv hd
  exact ⟨he, r, hd, Host.Outcome.next.inj (h.symm.trans (step_of_decode he hd))⟩

/-- Settles O37: in each answer of the decode core the two steps give the same outcome. -/
theorem stepIsTheSpecStep : Obligations.StepIsTheSpecStep := by
  intro s
  by_cases he : s.Enabled
  · unfold scanStep
    rw [if_pos he]
    cases hd : decodeCore s s.cursor (s.len - s.cursor) with
    | error f => exact step_of_error he hd
    | ok p =>
      obtain ⟨r, adv⟩ := p
      rw [step_of_decode he hd, decodeCore_adv hd]
      cases r <;> rfl
  · rw [step_of_not_enabled he, scanStep, if_neg he]

end Machine

end Sys2Proof
end

section
/-! PROOFS. The invariant of a scan (10_state.md R22, R23, R25, R26): what the decode core reads (40_decode_step.md
R108), so that earlier records stay true decodes, and that every step keeps the invariant. -/

namespace Sys2Proof

open Claims

theorem InsnLen.bytes_even (n : InsnLen) : n.bytes % 2 = 0 := by
  cases n <;> decide

namespace Machine

/-! ### What the decode core reads -/

/-- A read depends on the bytes of its range only. -/
theorem memRead_congr {s t : State} {n off : Nat} (h : ∀ k < n, s.byteAt (off + k) = t.byteAt (off + k)) :
    s.memRead off n = t.memRead off n := by
  induction n generalizing off with
  | zero => rfl
  | succ n ih =>
    have hfirst : s.byteAt off = t.byteAt off := h 0 n.succ_pos
    have hrest : s.memRead (off + 1) n = t.memRead (off + 1) n := ih fun k hk => by
      rw [Nat.add_assoc, Nat.add_comm 1 k]
      exact h (k + 1) (Nat.succ_lt_succ hk)
    simp only [State.memRead, hfirst, hrest]

theorem decodeCore_of_no_byte {s : State} {i : Nat} (avail : Nat) (hb : s.byteAt i = none) :
    decodeCore s i avail = .error (.byteNotLoaded i) := by
  simp only [decodeCore, State.memRead, hb]

/-- A classified length is decoded alike where its bytes agree; where they do not all remain, none is read. -/
theorem decodeSized_congr {s t : State} {n : InsnLen} {i avail : Nat}
    (h : n.bytes ≤ avail → ∀ k < n.bytes, s.byteAt (i + k) = t.byteAt (i + k)) :
    decodeSized s n i avail = decodeSized t n i avail := by
  by_cases ha : avail < n.bytes
  · rw [decodeSized_of_truncated ha, decodeSized_of_truncated ha]
  · simp only [decodeSized, memRead_congr (h (Nat.le_of_not_lt ha))]

theorem readWidth_classOf (n : InsnLen) : readWidth (classOf n) = n.bytes := by
  cases n <;> rfl

/-- Settles O11: the first byte fixes the class, and the class the range of the one read that follows. -/
theorem decodeReadsOnlyTheInstruction : Obligations.DecodeReadsOnlyTheInstruction := by
  intro s t i hlen hfirst hrest
  rw [← hlen]
  cases hs : s.byteAt i with
  | none => rw [decodeCore_of_no_byte _ hs, decodeCore_of_no_byte _ (hfirst ▸ hs)]
  | some b0 =>
    have ht : t.byteAt i = some b0 := hfirst ▸ hs
    obtain hc | ⟨n, hc⟩ := classify_bad_or_classOf b0
    · rw [decodeCore_of_bad _ hs hc, decodeCore_of_bad _ ht hc]
    · rw [decodeCore_of_classOf _ hs hc, decodeCore_of_classOf _ ht hc]
      refine decodeSized_congr fun ha k hk => hrest b0 hs k ?_
      rw [hc, readWidth_classOf, Nat.min_eq_right ha]
      exact hk

/-- A record stays a true decode in a state over the same buffer. -/
theorem State.Decodes.of_buf_eq {s t : State} {r : Record} (h : s.Decodes r) (hbuf : t.buf = s.buf)
    (hlen : t.len = s.len) : t.Decodes r := by
  have hbyte : ∀ a, t.byteAt a = s.byteAt a := fun a => by rw [State.byteAt, State.byteAt, hbuf, hlen]
  unfold State.Decodes
  rw [decodeReadsOnlyTheInstruction t s r.off hlen (hbyte _) fun _ _ k _ => hbyte _]
  exact h

/-! ### The stream -/

/-- One record more continues the stream exactly if it stands where the stream led to, and leads to its own end. -/
theorem streamFrom_append_singleton {rs : List Record} {r : Record} {i j : Nat} :
    streamFrom i (rs ++ [r]) j = true ↔ streamFrom i rs r.off = true ∧ r.off + r.advance = j := by
  induction rs generalizing i with
  | nil =>
    simp only [List.nil_append, streamFrom, Bool.and_eq_true, decide_eq_true_eq, eq_comm (a := i)]
    exact and_congr_right fun h => by rw [h]
  | cons q rs ih => simp only [List.cons_append, streamFrom, Bool.and_eq_true, ih, and_assoc]

/-! ### The invariant after a record -/

theorem Record.advance_even (r : Record) : r.advance % 2 = 0 := by
  cases r with
  | insn off n w x => exact n.bytes_even
  | unknown off n w => exact n.bytes_even
  | badLength off b0 => exact Nat.mod_self 2
  | truncated off need k => exact Nat.zero_mod 2

theorem Record.advance_of_truncated {r : Record} (h : r.isTruncated = true) : r.advance = 0 := by
  cases r with
  | truncated off need k => rfl
  | insn | unknown | badLength => cases h

section
variable {s : State} {r : Record} {adv : Nat} (he : s.Enabled) (hd : decodeCore s s.cursor s.avail = .ok (r, adv))
include he

/-- The status after a record says how the cursor stands to `len` (R104). -/
theorem afterRecord_status_cases :
    (r.isTruncated = true ∧ (s.afterRecord r).status = .truncated) ∨
    (r.isTruncated = false ∧ s.len ≤ s.cursor + r.advance ∧ (s.afterRecord r).status = .done) ∨
    (r.isTruncated = false ∧ s.cursor + r.advance < s.len ∧ (s.afterRecord r).status = .running) := by
  rw [afterRecord_status, he.1]
  cases r.isTruncated with
  | true => exact .inl ⟨rfl, rfl⟩
  | false =>
    obtain hle | hlt := le_or_gt s.len (s.cursor + r.advance)
    · exact .inr (.inl ⟨rfl, hle, if_pos hle⟩)
    · exact .inr (.inr ⟨rfl, hlt, if_neg hlt.not_ge⟩)

theorem afterRecord_statusInv : (s.afterRecord r).StatusInv := by
  have hlt : s.cursor < s.len := he.2
  rw [State.StatusInv, afterRecord_len, afterRecord_cursor]
  obtain ⟨ht, hst⟩ | ⟨-, hle, hst⟩ | ⟨-, -, hst⟩ := afterRecord_status_cases (r := r) he
  · simp [hst, Record.advance_of_truncated ht, hlt]
  · simp [hst, hle]
  · simp [hst]

/-- The appended record stands before the new cursor, or at it after a truncation. -/
theorem off_lt_afterRecord_cursor (hoff : r.off = s.cursor) :
    r.off < s.cursor + r.advance ∨ (r.off = s.cursor + r.advance ∧ (s.afterRecord r).status = .truncated) := by
  rw [hoff]
  obtain ⟨ht, hst⟩ | ⟨ht, -⟩ | ⟨ht, -⟩ := afterRecord_status_cases (r := r) he
  · exact .inr ⟨by rw [Record.advance_of_truncated ht, Nat.add_zero], hst⟩
  · exact .inl (Nat.lt_add_of_pos_right (Record.advance_pos ht))
  · exact .inl (Nat.lt_add_of_pos_right (Record.advance_pos ht))

include hd

theorem afterRecord_cursor_le : s.cursor + r.advance ≤ s.len + 1 := by
  obtain hle | ⟨b0, rfl⟩ := decodeCore_end_le he.2 hd
  · exact Nat.le_succ_of_le hle
  · exact Nat.succ_le_succ he.2

theorem afterRecord_cursorInv (heven : s.cursor % 2 = 0) : (s.afterRecord r).CursorInv := by
  rw [State.CursorInv, afterRecord_cursor, afterRecord_len]
  refine ⟨?_, fun hrun => ?_, afterRecord_cursor_le he hd⟩
  · rw [Nat.add_mod, heven, r.advance_even]
  · obtain ⟨-, hst⟩ | ⟨-, -, hst⟩ | ⟨-, hlt, -⟩ := afterRecord_status_cases (r := r) he
    · cases hst.symm.trans hrun
    · cases hst.symm.trans hrun
    · exact hlt

/-- Only an unsupported length at the last byte moves the cursor past `len` (R22). -/
theorem badLength_of_overrun (hover : s.cursor + r.advance = s.len + 1) : ∃ b0, r = .badLength (s.len - 1) b0 := by
  obtain hle | ⟨b0, rfl⟩ := decodeCore_end_le he.2 hd
  · omega
  · have hlast : s.cursor + 1 = s.len := Nat.succ.inj hover
    exact ⟨b0, by rw [← hlast, Nat.add_sub_cancel]⟩

/-- The record of an enabled step keeps the invariant. -/
theorem State.Inv.afterRecord (hs : s.Inv) : (s.afterRecord r).Inv where
  cursor := afterRecord_cursorInv he hd hs.cursor.1
  overrun hover := by
    rw [afterRecord_cursor, afterRecord_len] at hover
    obtain ⟨b0, rfl⟩ := badLength_of_overrun he hd hover
    exact ⟨b0, by rw [afterRecord_out, List.getLast?_concat, afterRecord_len]⟩
  status := afterRecord_statusInv he
  memory := by rw [afterRecord_buf]; exact hs.memory
  records q hq := by
    rw [afterRecord_out, List.mem_append, List.mem_singleton] at hq
    obtain hq | rfl := hq
    · exact hs.records q hq
    · exact decodeCore_wellFormed he.2 hd
  decodes q hq := by
    rw [afterRecord_out, List.mem_append, List.mem_singleton] at hq
    have hq' : s.Decodes q := by
      obtain hq | rfl := hq
      · exact hs.decodes q hq
      · obtain rfl := decodeCore_adv hd
        rw [State.Decodes, decodeCore_off hd]
        exact hd
    exact hq'.of_buf_eq (afterRecord_buf s r) (afterRecord_len s r)
  rising := by
    rw [afterRecord_out, offsetsRise_append_singleton, decodeCore_off hd]
    exact ⟨hs.rising, fun q hq => hs.off_lt_cursor he.1 hq⟩
  before q hq := by
    rw [afterRecord_out, List.mem_append, List.mem_singleton] at hq
    rw [afterRecord_cursor]
    obtain hq | rfl := hq
    · exact .inl (Nat.lt_add_right _ (hs.off_lt_cursor he.1 hq))
    · exact off_lt_afterRecord_cursor he (decodeCore_off hd)
  stream := by
    rw [afterRecord_out, afterRecord_cursor, streamFrom_append_singleton, decodeCore_off hd]
    exact ⟨hs.stream, rfl⟩

end

/-- Settles O48: a step gives the state after the record of the decode core, which keeps each part of the invariant. -/
theorem stepKeepsScanInvariant : Obligations.StepKeepsScanInvariant := by
  intro s t hs h
  obtain ⟨he, r, hd, rfl⟩ := step_next_inv h
  exact hs.afterRecord he hd

/-! ### The start of a scan -/

/-- With nothing emitted and the cursor at 0, the invariant asks for a canonical buffer only. -/
theorem hostStart_inv {s : State} (hm : Memory.wf s.buf = true) : (hostStart s).Inv where
  cursor := by
    rw [State.CursorInv, hostStart_cursor, hostStart_status, hostStart_len, startStatus]
    by_cases hlen : 0 < s.len
    · simp [hlen]
    · simp [hlen]
  overrun h := by simp at h
  status := by
    rw [State.StatusInv, hostStart_status, startStatus]
    by_cases hlen : 0 < s.len
    · simp [hlen]
    · simp [hlen, Nat.le_of_not_lt hlen]
  memory := hm
  records := by simp
  decodes := by simp
  rising := List.Pairwise.nil
  before := by simp
  stream := rfl

theorem launch_byteAt (bytes : List Byte) (k : Nat) (h : k < bytes.length) :
    (launch bytes).byteAt k = some bytes[k] := by
  have hread : Memory.read (Memory.writeBytes [] 0 bytes) (0 + k) = some bytes[k] := read_writeBytes [] 0 bytes h
  rw [Nat.zero_add] at hread
  exact (if_pos h).trans hread

theorem launch_loaded (bytes : List Byte) : (launch bytes).Loaded := fun a ha => by
  have hbyte : (launch bytes).byteAt a = some bytes[a] := launch_byteAt bytes a ha
  rw [State.byteAt, if_pos ha] at hbyte
  rw [hbyte]
  rfl

theorem launch_inv (bytes : List Byte) : (launch bytes).Inv :=
  hostStart_inv (wf_writeBytes [] 0 bytes wf_reset)

/-- Settles O49: a started scan has emitted nothing, so its invariant rests on the canonical buffer that the host's
write gives; the reset state is the start over the empty buffer. -/
theorem startEstablishesInvariant : Obligations.StartEstablishesInvariant :=
  ⟨fun _ => rfl, fun _ => hostStart_inv,
    fun bytes => ⟨launch_inv bytes, launch_loaded bytes, rfl, launch_byteAt bytes⟩,
    hostStart_inv (s := State.reset) wf_reset, rfl, rfl, rfl⟩

end Machine

end Sys2Proof
end

section
/-! PROOFS. The whole scan (40_decode_step.md R106, R109, R110; 10_state.md R22–R24): the final states, the step bound,
the width of the cursor and the launch parameters. -/

namespace Sys2Proof.Machine

/-! ### Final states -/

theorem runScan_of_final {s : State} (h : s.Final) (k : Nat) : runScan k s = .next s := by
  cases k with
  | zero => rfl
  | succ k => exact if_neg h

theorem runScan_of_step {s t : State} (hrun : s.status = .running) (h : step s = .next t) (k : Nat) :
    runScan (k + 1) s = runScan k t := by
  rw [runScan, if_pos hrun, h]

/-- Settles O39: the record of a step fixes the status, and a state that is not enabled is stuck. -/
theorem terminalAndFinalStates : Obligations.TerminalAndFinalStates := by
  refine ⟨fun s t h => ?_, fun s hs => step_of_not_enabled fun he => ?_, fun s k hs => runScan_of_final hs k⟩
  · obtain ⟨he, r, -, rfl⟩ := step_next_inv h
    rw [afterRecord_len, afterRecord_cursor]
    obtain ⟨-, hst⟩ | ⟨-, hle, hst⟩ | ⟨-, hlt, hst⟩ := afterRecord_status_cases (r := r) he
    · exact .inl hst
    · exact .inr (.inl ⟨hle, hst⟩)
    · exact .inr (.inr ⟨hlt, hst⟩)
  · obtain ⟨hrun, hlt⟩ := he
    obtain hst | hle := hs
    · exact hst hrun
    · exact hlt.not_ge hle

/-! ### Loaded buffers -/

/-- Whether the host has loaded the buffer is a matter of `buf` and `len`. -/
theorem State.Loaded.of_buf_eq {s t : State} (h : s.Loaded) (hbuf : t.buf = s.buf) (hlen : t.len = s.len) :
    t.Loaded := by
  rw [State.Loaded, hbuf, hlen]
  exact h

/-- Settles O47: over a loaded buffer the decode core answers, and no record touches the buffer or `len`. -/
theorem enabledLoadedStepCompletes : Obligations.EnabledLoadedStepCompletes := by
  intro s he hl
  obtain ⟨⟨r, adv⟩, hd⟩ := decodeCore_ok_of_loaded hl he.2
  refine ⟨_, step_of_decode he hd, hl.of_buf_eq (afterRecord_buf s r) (afterRecord_len s r), afterRecord_buf s r,
    afterRecord_len s r, ?_⟩
  rw [afterRecord_out, List.length_append, List.length_singleton]

/-- Settles O41: a step's record leaves the launch parameters alone; the host's load tests the status, then the length,
and its bytes read back from the buffer that it writes. -/
theorem launchParametersAreNotWritten : Obligations.LaunchParametersAreNotWritten := by
  refine ⟨fun s t h => ?_, fun maxLen bytes s hs hlen => ?_, fun maxLen bytes s hs => if_pos hs,
    fun maxLen bytes s hs hlen => ?_⟩
  · obtain ⟨-, r, -, rfl⟩ := step_next_inv h
    exact ⟨afterRecord_buf s r, afterRecord_len s r⟩
  · refine ⟨{ s with buf := Memory.writeBytes [] 0 bytes, len := bytes.length }, ?_, rfl, hlen, launch_byteAt bytes,
      wf_writeBytes [] 0 bytes wf_reset, rfl, rfl, rfl⟩
    rw [hostLoad, if_neg hs, if_neg hlen.not_gt]
  · rw [hostLoad, if_neg hs, if_pos hlen]

/-! ### The end of a scan -/

theorem Record.two_le_advance {r : Record} (h : r.isTruncated = false) : 2 ≤ r.advance := by
  have hpos : 0 < r.advance := r.advance_pos h
  have heven : r.advance % 2 = 0 := r.advance_even
  omega

/-- A record either ends the scan or brings the cursor at least 2 bytes closer to `len`. -/
theorem afterRecord_closer {s : State} (he : s.Enabled) (r : Record) (hrun : (s.afterRecord r).status = .running) :
    s.cursor + 2 ≤ (s.afterRecord r).cursor := by
  rw [afterRecord_cursor]
  obtain ⟨-, hst⟩ | ⟨-, -, hst⟩ | ⟨ht, -, -⟩ := afterRecord_status_cases (r := r) he
  · cases hst.symm.trans hrun
  · cases hst.symm.trans hrun
  · exact Nat.add_le_add_left (Record.two_le_advance ht) _

/-- Under the invariant a running scan is enabled. -/
theorem State.Inv.enabled {s : State} (hs : s.Inv) (hrun : s.status = .running) : s.Enabled := by
  obtain ⟨-, hlt, -⟩ := hs.cursor
  exact ⟨hrun, hlt hrun⟩

/-- From the invariant over a loaded buffer, as many steps as there are pairs of bytes ahead of a running cursor end the
scan, with at most one record a step. -/
theorem runScan_ends (k : Nat) {s : State} (hs : s.Inv) (hl : s.Loaded)
    (hk : s.status = .running → s.len - s.cursor ≤ 2 * k) :
    ∃ t, runScan k s = .next t ∧ t.Final ∧ t.Inv ∧ t.out.length ≤ s.out.length + k ∧
      t.buf = s.buf ∧ t.len = s.len := by
  induction k generalizing s with
  | zero =>
    have hfinal : s.Final := fun hrun => by
      have hlt : s.cursor < s.len := (hs.enabled hrun).2
      have hdone : s.len - s.cursor ≤ 0 := hk hrun
      omega
    exact ⟨s, rfl, hfinal, hs, Nat.le_refl _, rfl, rfl⟩
  | succ k ih =>
    by_cases hrun : s.status = .running
    · have he : s.Enabled := hs.enabled hrun
      obtain ⟨⟨r, adv⟩, hd⟩ := decodeCore_ok_of_loaded hl he.2
      have hk' : (s.afterRecord r).status = .running → (s.afterRecord r).len - (s.afterRecord r).cursor ≤ 2 * k :=
        fun hrun' => by
          have hcloser : s.cursor + 2 ≤ (s.afterRecord r).cursor := afterRecord_closer he r hrun'
          have hbound : s.len - s.cursor ≤ 2 * (k + 1) := hk hrun
          rw [afterRecord_len]
          omega
      obtain ⟨t, hscan, hfinal, hinv, hcount, hbuf, hlen⟩ :=
        ih (hs.afterRecord he hd) (hl.of_buf_eq (afterRecord_buf s r) (afterRecord_len s r)) hk'
      rw [afterRecord_out, List.length_append, List.length_singleton] at hcount
      rw [afterRecord_buf] at hbuf
      rw [afterRecord_len] at hlen
      refine ⟨t, ?_, hfinal, hinv, by omega, hbuf, hlen⟩
      rw [runScan_of_step hrun (step_of_decode he hd), hscan]
    · exact ⟨s, runScan_of_final hrun _, hrun, hs, Nat.le_add_right _ _, rfl, rfl⟩

theorem le_two_mul_stepBound (n : Nat) : n ≤ 2 * stepBound n := by
  unfold stepBound
  omega

/-- Settles O51: every step brings a running cursor 2 bytes closer to `len` or ends the scan, and keeps the invariant.
-/
theorem everyScanEnds : Obligations.EveryScanEnds := by
  refine ⟨fun bytes => ?_, fun s hs hl => ?_⟩
  · obtain ⟨t, hscan, hfinal, hinv, hcount, hbuf, hlen⟩ :=
      runScan_ends (stepBound bytes.length) (launch_inv bytes) (launch_loaded bytes)
        fun _ => le_two_mul_stepBound bytes.length
    refine ⟨t, hscan, hfinal, hinv, ?_, fun k h => ?_⟩
    · rwa [launch, hostStart_out, List.length_nil, Nat.zero_add] at hcount
    · rw [State.byteAt, hbuf, hlen]
      exact launch_byteAt bytes k h
  · obtain ⟨t, hscan, hfinal, hinv, hcount, -, -⟩ :=
      runScan_ends (stepBound (s.len - s.cursor)) hs hl fun _ => le_two_mul_stepBound _
    exact ⟨t, hscan, hfinal, hinv, hcount⟩

/-! ### The width of the cursor -/

/-- CUR_W is the ceiling of the logarithm of MAX_LEN + 2: the least number of bits for MAX_LEN + 1. -/
theorem cursorWidth_bounds (maxLen : Nat) :
    maxLen + 2 ≤ 2 ^ Config.cursorWidth maxLen ∧ 2 ^ (Config.cursorWidth maxLen - 1) < maxLen + 2 := by
  have hlt : maxLen + 1 < 2 ^ (Nat.log2 (maxLen + 1) + 1) := Nat.lt_log2_self
  have hle : 2 ^ Nat.log2 (maxLen + 1) ≤ maxLen + 1 := Nat.log2_self_le (Nat.succ_ne_zero maxLen)
  exact ⟨hlt, Nat.lt_succ_of_le hle⟩

/-- Settles O50: the invariant bounds the cursor by len + 1, and CUR_W bits hold every number up to MAX_LEN + 1. -/
theorem cursorFitsItsWidth : Obligations.CursorFitsItsWidth := by
  refine ⟨fun s maxLen hs hlen => ?_, cursorWidth_bounds, by decide⟩
  obtain ⟨-, -, hcursor⟩ := hs.cursor
  calc s.cursor ≤ s.len + 1 := hcursor
    _ < maxLen + 2 := by omega
    _ ≤ 2 ^ Config.cursorWidth maxLen := (cursorWidth_bounds maxLen).1

end Sys2Proof.Machine
end

section
/-! PROOFS. The execution of a form by itself (40_decode_step.md R104, R105; 60_exceptions.md R233): its completion, its
truncation and its frame; and the record that a step emits, by the class of the first byte (60_exceptions.md R236). -/

namespace Sys2Proof.Machine

open Claims

/-! ### Completion -/

/-- Every form completes in an enabled, loaded state with enough bytes left, whatever the bytes are. -/
theorem completes (x : Instr) : Completes x.length x := by
  intro s he hl hle
  obtain ⟨v, hv⟩ := memRead_of_loaded hl (Nat.le_sub_of_add_le' hle)
  obtain ⟨w, -, rfl, -⟩ := exists_word_of_memRead hv
  exact ⟨w, hv, exec_eq_afterInsn he hv, fun _ => rfl⟩

/-- Settles O30: the control-transfer forms complete like any form of 4 bytes. -/
theorem controlTransferKeepsScanLinear : Obligations.ControlTransferKeepsScanLinear :=
  ⟨fun rs1 rs2 imm => completes (.bne rs1 rs2 imm), fun rs1 rs2 imm => completes (.blt rs1 rs2 imm),
    fun rd imm => completes (.jal rd imm)⟩

/-- Settles O31: the system forms complete like any form of 4 bytes. -/
theorem systemFormsHaveNoEffect : Obligations.SystemFormsHaveNoEffect :=
  ⟨fun rd rs1 csr => completes (.csrrs rd csr rs1), completes .wfi, completes .ecall⟩

/-- Settles O32: the compressed forms complete like any form of 2 bytes. -/
theorem compressedFormsComplete : Obligations.CompressedFormsComplete :=
  ⟨completes .cAddi, fun rd imm => completes (.cLi rd imm), fun rd rs => completes (.cMv rd rs)⟩

/-- Settles O33: the integer, memory and upper-immediate forms complete like any form of 4 bytes. -/
theorem integerMemoryUpperFormsComplete : Obligations.IntegerMemoryUpperFormsComplete :=
  ⟨fun rd rs1 imm => completes (.addi rd rs1 imm), fun rs2 rs1 imm => completes (.sw rs2 rs1 imm),
    fun rd rs1 imm => completes (.lw rd rs1 imm), fun rd imm => completes (.lui rd imm)⟩

/-! ### Truncation and frame -/

/-- Settles O34: the bounds check of a form comes before its read. -/
theorem shortBufferTruncatesEveryForm : Obligations.ShortBufferTruncatesEveryForm := by
  intro x s he ha
  rw [exec_eq_retire, retire_truncated he ha]
  rfl

/-- Settles O35: the two ways in which a form gives a next state, a truncation and a committed record. -/
theorem execFrame : Obligations.ExecFrame := by
  intro x s t h
  rw [exec_eq_retire] at h
  obtain ⟨⟨hrun, -⟩, ⟨-, rfl⟩ | ⟨-, w, -, rfl⟩⟩ := retire_next h
  · exact ⟨rfl, rfl, fun _ => rfl, ⟨_, raiseTruncated_out _ _, rfl⟩, .inl ⟨rfl, rfl⟩⟩
  · refine ⟨rfl, rfl, fun _ => rfl, ⟨_, commit_out _ _ _, rfl⟩, .inr ⟨rfl, ?_⟩⟩
    rw [commit_status, hrun, commit_cursor]

/-- Settles O43: the class of the first byte gives the truncation, with no other byte read, and its status is final. -/
theorem truncationIsFinal : Obligations.TruncationIsFinal := by
  intro s b0 need he hb hc ha
  have hd : decodeCore s s.cursor s.avail = .ok (.truncated s.cursor need s.avail, 0) := by
    rw [decodeCore_of_classOf _ hb hc]
    exact decodeSized_of_truncated ha
  have hstuck : ¬(afterTruncated need s).Enabled := fun hen => nomatch hen.1
  exact ⟨step_of_truncated he hd, Nat.sub_pos_of_lt he.2, step_of_not_enabled hstuck⟩

/-! ### The record of a step -/

/-- Settles O45: the record of a step is the decode core's, which tests the class, then the bounds, then the word. -/
theorem stepPriority : Obligations.StepPriority := by
  intro s t b0 h hb
  obtain ⟨-, r, hd, rfl⟩ := step_next_inv h
  have hr {q : Record} {adv : Nat} (hq : decodeCore s s.cursor s.avail = .ok (q, adv)) : r = q :=
    congrArg Prod.fst (Except.ok.inj (hd.symm.trans hq))
  refine ⟨r, afterRecord_out s r, fun hc => ?_, fun n hc => ?_⟩
  · rw [hr (decodeCore_of_bad _ hb hc)]
    rfl
  · have hcore : decodeCore s s.cursor s.avail = decodeSized s n s.cursor s.avail := decodeCore_of_classOf _ hb hc
    refine ⟨fun ha => ?_, fun w hw => ⟨fun hform => ?_, fun hnone => ?_⟩⟩
    · rw [hr (hcore.trans (decodeSized_of_truncated ha))]
      rfl
    · obtain ⟨x, hx⟩ := Option.isSome_iff_exists.1 hform
      rw [hr (hcore.trans (decodeSized_of_insn (bytes_le_avail hw) hw hx))]
      rfl
    · have hx : routeWord n w = none := Option.not_isSome_iff_eq_none.1 (Bool.eq_false_iff.1 hnone)
      rw [hr (hcore.trans (decodeSized_of_unknown (bytes_le_avail hw) hw hx))]
      rfl

/-! ### The step at the bytes of an instruction -/

/-- Where the bytes of a list stand in the buffer, the read gives their little-endian number. -/
theorem memRead_eq_leNat {s : State} {off : Nat} {bs : List Byte}
    (h : ∀ (k : Nat) (hk : k < bs.length), s.byteAt (off + k) = some bs[k]) :
    s.memRead off bs.length = some (leNat bs) := by
  induction bs generalizing off with
  | nil => rfl
  | cons b bs ih =>
    have hfirst : s.byteAt off = some b := h 0 (Nat.succ_pos _)
    have hrest : s.memRead (off + 1) bs.length = some (leNat bs) := ih fun k hk => by
      rw [Nat.add_assoc, Nat.add_comm 1 k]
      exact h (k + 1) (Nat.succ_lt_succ hk)
    exact memRead_succ_of hfirst hrest

theorem memRead_eq_leNat_take {s : State} {off n : Nat} {bs : List Byte} (hn : n ≤ bs.length)
    (h : ∀ (k : Nat) (hk : k < bs.length), s.byteAt (off + k) = some bs[k]) :
    s.memRead off n = some (leNat (bs.take n)) := by
  have hbytes : ∀ (k : Nat) (hk : k < (bs.take n).length), s.byteAt (off + k) = some (bs.take n)[k] := fun k hk => by
    rw [List.getElem_take]
    exact h k _
  rw [← memRead_eq_leNat hbytes, List.length_take_of_le hn]

/-- If a classified length of bytes decodes to a form, the bytes are all there and their word is routed to it. -/
theorem decodeSizedBytes_insn {m n : InsnLen} {bs : List Byte} {w : Word} {x : Instr}
    (h : decodeSizedBytes m bs = .insn n w x) :
    n = m ∧ n.bytes ≤ bs.length ∧ w = BitVec.ofNat 32 (leNat (bs.take n.bytes)) ∧ routeWord n w = some x := by
  unfold decodeSizedBytes at h
  split at h
  · cases h
  · next ha =>
    split at h
    · next y hy =>
      cases h
      exact ⟨rfl, Nat.le_of_not_lt ha, rfl, hy⟩
    · cases h

theorem decodeBytes_of_classOf {b0 : Byte} {rest : List Byte} {n : InsnLen} (hc : classify b0 = classOf n) :
    decodeBytes (b0 :: rest) = decodeSizedBytes n (b0 :: rest) := by
  rw [decodeBytes, hc]
  cases n <;> rfl

/-- If bytes decode to a form, the first one has the class of its length. -/
theorem decodeBytes_insn {bs : List Byte} {n : InsnLen} {w : Word} {x : Instr} (h : decodeBytes bs = .insn n w x) :
    ∃ b0 rest, bs = b0 :: rest ∧ classify b0 = classOf n ∧ decodeSizedBytes n bs = .insn n w x := by
  cases bs with
  | nil => cases h
  | cons b0 rest =>
    refine ⟨b0, rest, rfl, ?_⟩
    obtain hc | ⟨m, hc⟩ := classify_bad_or_classOf b0
    · simp only [decodeBytes, hc] at h
      cases h
    · rw [decodeBytes_of_classOf hc] at h
      obtain ⟨rfl, -⟩ := decodeSizedBytes_insn h
      exact ⟨hc, h⟩

/-- Settles O36: the decode core reads from the buffer the word that the bytes decode to, so it answers their form. -/
theorem stepRunsDecodedInstruction : Obligations.StepRunsDecodedInstruction := by
  intro s bs n w x he hbytes h
  obtain ⟨b0, rest, rfl, hc, hsized⟩ := decodeBytes_insn h
  obtain ⟨-, hle, hw, hx⟩ := decodeSizedBytes_insn hsized
  have hread : s.memRead s.cursor n.bytes = some w.toNat := by
    have htake : s.memRead s.cursor n.bytes = some (leNat ((b0 :: rest).take n.bytes)) :=
      memRead_eq_leNat_take hle hbytes
    obtain ⟨v, hv, htoNat, -⟩ := exists_word_of_memRead htake
    rw [htake, hw, ← hv, htoNat]
  have hfirst : s.byteAt s.cursor = some b0 := hbytes 0 (Nat.succ_pos _)
  have hd : decodeCore s s.cursor s.avail = .ok (.insn s.cursor n w x, n.bytes) := by
    rw [decodeCore_of_classOf _ hfirst hc, decodeSized_of_insn (bytes_le_avail hread) hread hx]
  obtain ⟨rfl, -⟩ := decodedFormsAreWellFormed n w x hx
  exact ⟨step_of_insn he hd, exec_eq_afterInsn he hread⟩

/-! ### c.addi -/

/-- Exactly the words of R120 decode to `c.addi`. -/
theorem decodeC_eq_cAddi_iff {w : Half} : decodeC w = some .cAddi ↔ MatchesCAddi w := by
  refine ⟨fun h => ?_, decodeC_ofCAddi⟩
  obtain ⟨hm, -⟩ | ⟨-, hx⟩ | ⟨-, hx⟩ := decodeC_inv h
  · exact hm
  · cases hx
  · cases hx

/-- Settles O17: the words that decode to `c.addi` are those of its match condition, which leaves bits [12:2] free. -/
theorem cAddiFollowsItsRule : Obligations.CAddiFollowsItsRule :=
  ⟨fun _ hm => emitsForm_of_decodeC (decodeC_eq_cAddi_iff.2 (matchesCAddi_iff.2 hm)),
    fun _ h => matchesCAddi_iff.1 (decodeC_eq_cAddi_iff.1 h), by decide, by decide, by decide⟩

end Sys2Proof.Machine
end

section
/-! PROOFS. Encoding and decoding (30_encoding.md R67–R73, R75–R85): each field of an encoded word stands at its place,
so decoding gives the operands back; and the fields of a word, put at their places, are the word. -/

namespace Sys2Proof

open Machine Claims
open BitVec (extractLsb'_append_eq_of_le extractLsb'_append_eq_of_add_le extractLsb'_append_extractLsb'_eq_extractLsb'
  extractLsb'_eq_self)

/-! ### Offsets as joined bits -/

/-- Settles O5: each immediate is the two's-complement reading of its joined bits; a zero bit after them makes it even.
-/
theorem scatteredImmediatesAreOffsets : Obligations.ScatteredImmediatesAreOffsets := fun w =>
  ⟨⟨immB_eq_toInt w, immB_even_and_range w⟩, ⟨immJ_eq_toInt w, immJ_even_and_range w⟩, immU_eq_toInt w, immU_range w⟩

/-- An even number has bit 0 clear at every width. -/
theorem ofInt_low_bit {n : Nat} (hn : 0 < n) {i : Int} (h : i % 2 = 0) :
    (BitVec.ofInt n i).extractLsb' 0 1 = 0#1 := by
  have heven : i % 2 ^ n % 2 = 0 := by rw [Int.emod_emod_of_dvd _ (dvd_pow_self 2 hn.ne'), h]
  apply BitVec.eq_of_toNat_eq
  rw [BitVec.extractLsb'_toNat, Nat.shiftRight_zero, BitVec.toNat_ofInt, Nat.cast_pow, Nat.cast_two, BitVec.toNat_zero]
  omega

/-- The high and the low part of a field are the whole field. -/
theorem join_halves {m n : Nat} (v : BitVec (m + n)) : v.extractLsb' n m ++ v.extractLsb' 0 n = v := by
  rw [extractLsb'_append_extractLsb'_eq_extractLsb' n.zero_add.symm, extractLsb'_eq_self]

/-- The bits that format B encodes, with the clear bit 0, are the whole offset. -/
theorem join_offset13 {v : BitVec 13} (h : v.extractLsb' 0 1 = 0#1) :
    v.extractLsb' 12 1 ++ v.extractLsb' 11 1 ++ v.extractLsb' 5 6 ++ v.extractLsb' 1 4 ++ 0#1 = v := by
  rw [← h]
  simp (disch := decide) only [extractLsb'_append_extractLsb'_eq_extractLsb', extractLsb'_eq_self]

/-- The bits that format J encodes, with the clear bit 0, are the whole offset. -/
theorem join_offset21 {v : BitVec 21} (h : v.extractLsb' 0 1 = 0#1) :
    v.extractLsb' 20 1 ++ v.extractLsb' 12 8 ++ v.extractLsb' 11 1 ++ v.extractLsb' 1 10 ++ 0#1 = v := by
  rw [← h]
  simp (disch := decide) only [extractLsb'_append_extractLsb'_eq_extractLsb', extractLsb'_eq_self]

/-! ### The fields of an encoded word -/

/-- R68. -/
theorem encodeS_fields (imm : BitVec 12) (rs2 rs1 : RegIndex) (funct3 : BitVec 3) (opcode : BitVec 7) :
    (encodeS imm rs2 rs1 funct3 opcode).extractLsb' 0 7 = opcode ∧
    (encodeS imm rs2 rs1 funct3 opcode).extractLsb' 7 5 = imm.extractLsb' 0 5 ∧
    (encodeS imm rs2 rs1 funct3 opcode).extractLsb' 12 3 = funct3 ∧
    (encodeS imm rs2 rs1 funct3 opcode).extractLsb' 15 5 = rs1 ∧
    (encodeS imm rs2 rs1 funct3 opcode).extractLsb' 20 5 = rs2 ∧
    (encodeS imm rs2 rs1 funct3 opcode).extractLsb' 25 7 = imm.extractLsb' 5 7 := by
  unfold encodeS
  simp (disch := decide) only [extractLsb'_append_eq_of_le, extractLsb'_append_eq_of_add_le, Nat.reduceSub,
    extractLsb'_eq_self, true_and]

/-- R69. -/
theorem encodeB_fields (imm : BitVec 13) (rs2 rs1 : RegIndex) (funct3 : BitVec 3) (opcode : BitVec 7) :
    (encodeB imm rs2 rs1 funct3 opcode).extractLsb' 0 7 = opcode ∧
    (encodeB imm rs2 rs1 funct3 opcode).extractLsb' 12 3 = funct3 ∧
    (encodeB imm rs2 rs1 funct3 opcode).extractLsb' 15 5 = rs1 ∧
    (encodeB imm rs2 rs1 funct3 opcode).extractLsb' 20 5 = rs2 ∧
    (encodeB imm rs2 rs1 funct3 opcode).extractLsb' 31 1 = imm.extractLsb' 12 1 ∧
    (encodeB imm rs2 rs1 funct3 opcode).extractLsb' 7 1 = imm.extractLsb' 11 1 ∧
    (encodeB imm rs2 rs1 funct3 opcode).extractLsb' 25 6 = imm.extractLsb' 5 6 ∧
    (encodeB imm rs2 rs1 funct3 opcode).extractLsb' 8 4 = imm.extractLsb' 1 4 := by
  unfold encodeB
  simp (disch := decide) only [extractLsb'_append_eq_of_le, extractLsb'_append_eq_of_add_le, Nat.reduceSub,
    extractLsb'_eq_self, true_and]

/-- R70. -/
theorem encodeU_fields (imm : BitVec 20) (rd : RegIndex) (opcode : BitVec 7) :
    (encodeU imm rd opcode).extractLsb' 0 7 = opcode ∧ (encodeU imm rd opcode).extractLsb' 7 5 = rd ∧
    (encodeU imm rd opcode).extractLsb' 12 20 = imm := by
  unfold encodeU
  simp (disch := decide) only [extractLsb'_append_eq_of_le, extractLsb'_append_eq_of_add_le, Nat.reduceSub,
    extractLsb'_eq_self, true_and]

/-- R71. -/
theorem encodeJ_fields (imm : BitVec 21) (rd : RegIndex) (opcode : BitVec 7) :
    (encodeJ imm rd opcode).extractLsb' 0 7 = opcode ∧
    (encodeJ imm rd opcode).extractLsb' 7 5 = rd ∧
    (encodeJ imm rd opcode).extractLsb' 31 1 = imm.extractLsb' 20 1 ∧
    (encodeJ imm rd opcode).extractLsb' 12 8 = imm.extractLsb' 12 8 ∧
    (encodeJ imm rd opcode).extractLsb' 20 1 = imm.extractLsb' 11 1 ∧
    (encodeJ imm rd opcode).extractLsb' 21 10 = imm.extractLsb' 1 10 := by
  unfold encodeJ
  simp (disch := decide) only [extractLsb'_append_eq_of_le, extractLsb'_append_eq_of_add_le, Nat.reduceSub,
    extractLsb'_eq_self, true_and]

/-- R72. -/
theorem encodeCI_fields (funct3 : BitVec 3) (imm : BitVec 6) (rd : RegIndex) (op : BitVec 2) :
    (encodeCI funct3 imm rd op).extractLsb' 0 2 = op ∧
    (encodeCI funct3 imm rd op).extractLsb' 2 5 = imm.extractLsb' 0 5 ∧
    (encodeCI funct3 imm rd op).extractLsb' 7 5 = rd ∧
    (encodeCI funct3 imm rd op).extractLsb' 12 1 = imm.extractLsb' 5 1 ∧
    (encodeCI funct3 imm rd op).extractLsb' 13 3 = funct3 := by
  unfold encodeCI
  simp (disch := decide) only [extractLsb'_append_eq_of_le, extractLsb'_append_eq_of_add_le, Nat.reduceSub,
    extractLsb'_eq_self, true_and]

/-- R73. -/
theorem encodeCR_fields (funct3 : BitVec 3) (bit12 : BitVec 1) (rd rs : RegIndex) (op : BitVec 2) :
    (encodeCR funct3 bit12 rd rs op).extractLsb' 0 2 = op ∧
    (encodeCR funct3 bit12 rd rs op).extractLsb' 2 5 = rs ∧
    (encodeCR funct3 bit12 rd rs op).extractLsb' 7 5 = rd ∧
    (encodeCR funct3 bit12 rd rs op).extractLsb' 12 1 = bit12 ∧
    (encodeCR funct3 bit12 rd rs op).extractLsb' 13 3 = funct3 := by
  unfold encodeCR
  simp (disch := decide) only [extractLsb'_append_eq_of_le, extractLsb'_append_eq_of_add_le, Nat.reduceSub,
    extractLsb'_eq_self, true_and]

/-! ### The immediate of an encoded word -/

theorem immB_encodeB {i : Int} (h : ImmOkBranch i) (rs2 rs1 : RegIndex) (funct3 : BitVec 3) (opcode : BitVec 7) :
    immB (encodeB (BitVec.ofInt 13 i) rs2 rs1 funct3 opcode) = i := by
  obtain ⟨hlo, hhi, heven⟩ := h
  obtain ⟨-, -, -, -, h12, h11, h5, h1⟩ := encodeB_fields (BitVec.ofInt 13 i) rs2 rs1 funct3 opcode
  rw [immB_eq_toInt, h12, h11, h5, h1, join_offset13 (ofInt_low_bit (by decide) heven)]
  exact BitVec.toInt_ofInt_eq_self (by decide) hlo (by omega)

theorem immJ_encodeJ {i : Int} (h : ImmOkJump i) (rd : RegIndex) (opcode : BitVec 7) :
    immJ (encodeJ (BitVec.ofInt 21 i) rd opcode) = i := by
  obtain ⟨hlo, hhi, heven⟩ := h
  obtain ⟨-, -, h20, h12, h11, h1⟩ := encodeJ_fields (BitVec.ofInt 21 i) rd opcode
  rw [immJ_eq_toInt, h20, h12, h11, h1, join_offset21 (ofInt_low_bit (by decide) heven)]
  exact BitVec.toInt_ofInt_eq_self (by decide) hlo (by omega)

theorem toInt_ofInt12 {i : Int} (h : ImmOk12 i) : (BitVec.ofInt 12 i).toInt = i :=
  BitVec.toInt_ofInt_eq_self (by decide) h.1 (Int.lt_add_one_of_le h.2)

theorem toInt_ofInt20 {i : Int} (h : ImmOkUpper i) : (BitVec.ofInt 20 i).toInt = i :=
  BitVec.toInt_ofInt_eq_self (by decide) h.1 (Int.lt_add_one_of_le h.2)

/-! ### Decoding an encoded word -/

theorem length_leBytes (k v : Nat) : (leBytes k v).length = k := by
  induction k generalizing v with
  | zero => rfl
  | succ k ih => rw [leBytes, List.length_cons, ih]

/-- Assembling the bytes of a number gives the number, cut to that many bytes. -/
theorem leNat_leBytes (k v : Nat) : leNat (leBytes k v) = v % 256 ^ k := by
  induction k generalizing v with
  | zero => rw [pow_zero, Nat.mod_one]; rfl
  | succ k ih => rw [leBytes, leNat, ih, BitVec.toNat_ofNat, pow_succ' 256, Nat.mod_mul (x := v) (a := 256)]

/-- Enough bytes of a supported length decode to the form that their word is routed to. -/
theorem decodeSizedBytes_of_routeWord {n : InsnLen} {bs : List Byte} {w : Word} {x : Instr} (hle : n.bytes ≤ bs.length)
    (hw : BitVec.ofNat 32 (leNat (bs.take n.bytes)) = w) (hr : routeWord n w = some x) :
    decodeSizedBytes n bs = .insn n w x := by
  simp only [decodeSizedBytes, if_neg hle.not_gt, hw, hr]

/-- The bytes of a routed word decode to its form, whatever stands behind them. -/
theorem decodeBytes_leBytes {n : InsnLen} {w : Word} {x : Instr} (hlt : w.toNat < 2 ^ (8 * n.bytes))
    (hc : classify (w.setWidth 8) = classOf n) (hr : routeWord n w = some x) (rest : List Byte) :
    decodeBytes (leBytes n.bytes w.toNat ++ rest) = .insn n w x := by
  have hlen : (leBytes n.bytes w.toNat).length = n.bytes := length_leBytes _ _
  have hclass : decodeBytes (leBytes n.bytes w.toNat ++ rest) =
      decodeSizedBytes n (leBytes n.bytes w.toNat ++ rest) := by
    rw [← BitVec.ofNat_toNat] at hc
    cases n <;> exact decodeBytes_of_classOf hc
  rw [hclass]
  refine decodeSizedBytes_of_routeWord ?_ ?_ hr
  · rw [List.length_append, hlen]
    exact Nat.le_add_right _ _
  · rw [List.take_left' hlen, leNat_leBytes, show 256 = 2 ^ 8 from rfl, ← pow_mul, Nat.mod_eq_of_lt hlt,
      BitVec.ofNat_toNat, BitVec.setWidth_eq]

theorem decodeBytes_of_decodeC {w : Half} {x : Instr} (h : decodeC w = some x) (rest : List Byte) :
    decodeBytes ((InsnWord.half w).toBytes ++ rest) = .insn x.length (InsnWord.half w).toWord x := by
  have htoNat : (w.setWidth 32).toNat = w.toNat := BitVec.toNat_setWidth_of_le (by decide)
  rw [InsnWord.toBytes, InsnWord.toWord, length_of_decodeC h, ← htoNat]
  exact decodeBytes_leBytes (n := .two) (htoNat ▸ w.isLt) (classify_low_byte_of_half (op_ne_11_of_decodeC h))
    ((routeWord_two_setWidth w).trans h) rest

theorem decodeBytes_of_decodeS {w : Word} {x : Instr} (h : decodeS w = some x) (rest : List Byte) :
    decodeBytes ((InsnWord.word w).toBytes ++ rest) = .insn x.length (InsnWord.word w).toWord x := by
  rw [length_of_decodeS h]
  exact decodeBytes_leBytes (n := .four) w.isLt (classify_low_byte_of_decodeS h) h rest

theorem decodeC_encodeCI_cLi {rd : RegIndex} (hrd : rd ≠ 0) (imm : BitVec 6) :
    decodeC (encodeCI 0b010#3 imm rd 0b01#2) = some (.cLi rd imm) := by
  obtain ⟨hop, hlow, hrd', hhigh, hf⟩ := encodeCI_fields 0b010#3 imm rd 0b01#2
  refine decodeC_eq_cLi_iff.2 ⟨matchesCLi_iff.2 ⟨hop, hf, hrd'.symm ▸ hrd⟩, hrd'.symm, ?_⟩
  rw [hhigh, hlow]
  exact (join_halves (m := 1) (n := 5) imm).symm

theorem decodeC_encodeCR_cMv {rd rs : RegIndex} (hrd : rd ≠ 0) (hrs : rs ≠ 0) :
    decodeC (encodeCR 0b100#3 0#1 rd rs 0b10#2) = some (.cMv rd rs) := by
  obtain ⟨hop, hrs', hrd', hbit, hf⟩ := encodeCR_fields 0b100#3 0#1 rd rs 0b10#2
  exact decodeC_eq_cMv_iff.2
    ⟨matchesCMv_iff.2 ⟨hop, hf, hrs'.symm ▸ hrs, hrd'.symm ▸ hrd, hbit⟩, hrd'.symm, hrs'.symm⟩

/-- Settles O52: the fields of an encoded word are its operands, so the word is routed to the instruction, and its bytes
are assembled to it. -/
theorem decodeOfEncodeIsIdentity : Obligations.DecodeOfEncodeIsIdentity := by
  intro x rest hwf
  cases x with
  | cAddi => exact decodeBytes_of_decodeC (by decide) rest
  | cLi rd imm => exact decodeBytes_of_decodeC (decodeC_encodeCI_cLi (of_decide_eq_true hwf) imm) rest
  | cMv rd rs =>
    obtain ⟨hrd, hrs⟩ := of_decide_eq_true hwf
    exact decodeBytes_of_decodeC (decodeC_encodeCR_cMv hrd hrs) rest
  | addi rd rs1 imm =>
    obtain ⟨hop, hrd, hf, hrs1, himm⟩ := encodeI_fields (BitVec.ofInt 12 imm) rs1 0b000#3 rd 0b0010011#7
    refine decodeBytes_of_decodeS (decodeS_eq_addi_iff.2 ⟨matchesAddi_iff.2 ⟨hop, hf⟩, hrd.symm, hrs1.symm, ?_⟩) rest
    rw [himm, toInt_ofInt12 (of_decide_eq_true hwf)]
  | sw rs2 rs1 imm =>
    obtain ⟨hop, hlow, hf, hrs1, hrs2, hhigh⟩ := encodeS_fields (BitVec.ofInt 12 imm) rs2 rs1 0b010#3 0b0100011#7
    refine decodeBytes_of_decodeS (decodeS_eq_sw_iff.2 ⟨matchesSw_iff.2 ⟨hop, hf⟩, hrs2.symm, hrs1.symm, ?_⟩) rest
    rw [hhigh, hlow, join_halves, toInt_ofInt12 (of_decide_eq_true hwf)]
  | lw rd rs1 imm =>
    obtain ⟨hop, hrd, hf, hrs1, himm⟩ := encodeI_fields (BitVec.ofInt 12 imm) rs1 0b010#3 rd 0b0000011#7
    refine decodeBytes_of_decodeS (decodeS_eq_lw_iff.2 ⟨matchesLw_iff.2 ⟨hop, hf⟩, hrd.symm, hrs1.symm, ?_⟩) rest
    rw [himm, toInt_ofInt12 (of_decide_eq_true hwf)]
  | bne rs1 rs2 imm =>
    obtain ⟨hop, hf, hrs1, hrs2, -⟩ := encodeB_fields (BitVec.ofInt 13 imm) rs2 rs1 0b001#3 0b1100011#7
    exact decodeBytes_of_decodeS (decodeS_eq_bne_iff.2 ⟨matchesBne_iff.2 ⟨hop, hf⟩, hrs1.symm, hrs2.symm,
      (immB_encodeB (of_decide_eq_true hwf) ..).symm⟩) rest
  | blt rs1 rs2 imm =>
    obtain ⟨hop, hf, hrs1, hrs2, -⟩ := encodeB_fields (BitVec.ofInt 13 imm) rs2 rs1 0b100#3 0b1100011#7
    exact decodeBytes_of_decodeS (decodeS_eq_blt_iff.2 ⟨matchesBlt_iff.2 ⟨hop, hf⟩, hrs1.symm, hrs2.symm,
      (immB_encodeB (of_decide_eq_true hwf) ..).symm⟩) rest
  | jal rd imm =>
    obtain ⟨hop, hrd, -⟩ := encodeJ_fields (BitVec.ofInt 21 imm) rd 0b1101111#7
    exact decodeBytes_of_decodeS (decodeS_eq_jal_iff.2 ⟨matchesJal_iff.2 hop, hrd.symm,
      (immJ_encodeJ (of_decide_eq_true hwf) ..).symm⟩) rest
  | lui rd imm =>
    obtain ⟨hop, hrd, himm⟩ := encodeU_fields (BitVec.ofInt 20 imm) rd 0b0110111#7
    refine decodeBytes_of_decodeS (decodeS_eq_lui_iff.2 ⟨matchesLui_iff.2 hop, hrd.symm, ?_⟩) rest
    rw [immU_eq_toInt, himm, toInt_ofInt20 (of_decide_eq_true hwf)]
  | csrrs rd csr rs1 => exact decodeBytes_of_decodeS (decodeS_encodeI_csrrs rd rs1 csr) rest
  | wfi => exact decodeBytes_of_decodeS (decodeS_eq_wfi_iff.2 rfl) rest
  | ecall => exact decodeBytes_of_decodeS (decodeS_eq_ecall_iff.2 rfl) rest

end Sys2Proof
end

section
/-! PROOFS. A recognized word is the encoding of its form (30_encoding.md R67–R73), and at most one form matches it
(30_encoding.md R85). -/

namespace Sys2Proof

open Machine
open BitVec (extractLsb'_append_eq_of_le extractLsb'_append_eq_of_add_le extractLsb'_append_extractLsb'_eq_extractLsb'
  extractLsb'_eq_self)

/-! ### The fields of a word, put at their places -/

section
variable {w : Word} {funct3 : BitVec 3} {opcode : BitVec 7} (hop : w.extractLsb' 0 7 = opcode)
  (hf : w.extractLsb' 12 3 = funct3)
include hop

theorem encodeU_of_fields : encodeU (w.extractLsb' 12 20) (w.extractLsb' 7 5) opcode = w := by
  subst hop
  unfold encodeU
  simp (disch := decide) only [extractLsb'_append_extractLsb'_eq_extractLsb', extractLsb'_eq_self]

theorem encodeJ_of_fields :
    encodeJ (w.extractLsb' 31 1 ++ w.extractLsb' 12 8 ++ w.extractLsb' 20 1 ++ w.extractLsb' 21 10 ++ 0#1)
      (w.extractLsb' 7 5) opcode = w := by
  subst hop
  unfold encodeJ
  simp (disch := decide) only [extractLsb'_append_eq_of_le, extractLsb'_append_eq_of_add_le, Nat.reduceSub,
    extractLsb'_append_extractLsb'_eq_extractLsb', extractLsb'_eq_self]

include hf

theorem encodeI_of_fields :
    encodeI (w.extractLsb' 20 12) (w.extractLsb' 15 5) funct3 (w.extractLsb' 7 5) opcode = w := by
  subst hop hf
  unfold encodeI
  simp (disch := decide) only [extractLsb'_append_extractLsb'_eq_extractLsb', extractLsb'_eq_self]

theorem encodeS_of_fields : encodeS (w.extractLsb' 25 7 ++ w.extractLsb' 7 5) (w.extractLsb' 20 5)
    (w.extractLsb' 15 5) funct3 opcode = w := by
  subst hop hf
  unfold encodeS
  simp (disch := decide) only [extractLsb'_append_eq_of_le, extractLsb'_append_eq_of_add_le, Nat.reduceSub,
    extractLsb'_append_extractLsb'_eq_extractLsb', extractLsb'_eq_self]

theorem encodeB_of_fields :
    encodeB (w.extractLsb' 31 1 ++ w.extractLsb' 7 1 ++ w.extractLsb' 25 6 ++ w.extractLsb' 8 4 ++ 0#1)
      (w.extractLsb' 20 5) (w.extractLsb' 15 5) funct3 opcode = w := by
  subst hop hf
  unfold encodeB
  simp (disch := decide) only [extractLsb'_append_eq_of_le, extractLsb'_append_eq_of_add_le, Nat.reduceSub,
    extractLsb'_append_extractLsb'_eq_extractLsb', extractLsb'_eq_self]

end

section
variable {w : Half} {funct3 : BitVec 3} {op : BitVec 2} (hop : w.extractLsb' 0 2 = op)
  (hf : w.extractLsb' 13 3 = funct3)
include hop hf

theorem encodeCI_of_fields :
    encodeCI funct3 (w.extractLsb' 12 1 ++ w.extractLsb' 2 5) (w.extractLsb' 7 5) op = w := by
  subst hop hf
  unfold encodeCI
  simp (disch := decide) only [extractLsb'_append_eq_of_le, extractLsb'_append_eq_of_add_le, Nat.reduceSub,
    extractLsb'_append_extractLsb'_eq_extractLsb', extractLsb'_eq_self]

theorem encodeCR_of_fields {bit12 : BitVec 1} (hbit : w.extractLsb' 12 1 = bit12) :
    encodeCR funct3 bit12 (w.extractLsb' 7 5) (w.extractLsb' 2 5) op = w := by
  subst hop hf hbit
  unfold encodeCR
  simp (disch := decide) only [extractLsb'_append_extractLsb'_eq_extractLsb', extractLsb'_eq_self]

end

/-! ### Encoding a decoded word -/

theorem ofInt_immI (w : Word) : BitVec.ofInt 12 (immI w) = w.extractLsb' 20 12 := by
  rw [immI_eq_toInt, BitVec.ofInt_toInt]

theorem ofInt_immS (w : Word) : BitVec.ofInt 12 (immS w) = w.extractLsb' 25 7 ++ w.extractLsb' 7 5 := by
  rw [immS_eq_toInt]
  exact BitVec.ofInt_toInt

theorem ofInt_immB (w : Word) : BitVec.ofInt 13 (immB w) =
    w.extractLsb' 31 1 ++ w.extractLsb' 7 1 ++ w.extractLsb' 25 6 ++ w.extractLsb' 8 4 ++ 0#1 := by
  rw [immB_eq_toInt]
  exact BitVec.ofInt_toInt

theorem ofInt_immJ (w : Word) : BitVec.ofInt 21 (immJ w) =
    w.extractLsb' 31 1 ++ w.extractLsb' 12 8 ++ w.extractLsb' 20 1 ++ w.extractLsb' 21 10 ++ 0#1 := by
  rw [immJ_eq_toInt]
  exact BitVec.ofInt_toInt

theorem ofInt_immU (w : Word) : BitVec.ofInt 20 (immU w) = w.extractLsb' 12 20 := by
  rw [immU_eq_toInt, BitVec.ofInt_toInt]

/-- Each row's record encodes to the row's word: the fixed fields are those of the match condition. -/
theorem encode_of_decodeS {w : Word} {x : Instr} (h : decodeS w = some x) : encode x = .word w := by
  obtain ⟨hm, rfl⟩ | ⟨hm, rfl⟩ | ⟨hm, rfl⟩ | ⟨hm, rfl⟩ | ⟨hm, rfl⟩ | ⟨hm, rfl⟩ | ⟨hm, rfl⟩ | ⟨hm, rfl⟩ | ⟨hm, rfl⟩ |
    ⟨hm, rfl⟩ := decodeS_inv h
  · obtain ⟨hop, hf⟩ := matchesAddi_iff.1 hm
    rw [encode, ofInt_immI, rs1Of_eq_extract, rdOf_eq_extract]
    exact congrArg InsnWord.word (encodeI_of_fields hop hf)
  · obtain ⟨hop, hf⟩ := matchesSw_iff.1 hm
    rw [encode, ofInt_immS, rs2Of_eq_extract, rs1Of_eq_extract]
    exact congrArg InsnWord.word (encodeS_of_fields hop hf)
  · obtain ⟨hop, hf⟩ := matchesLw_iff.1 hm
    rw [encode, ofInt_immI, rs1Of_eq_extract, rdOf_eq_extract]
    exact congrArg InsnWord.word (encodeI_of_fields hop hf)
  · obtain ⟨hop, hf⟩ := matchesBne_iff.1 hm
    rw [encode, ofInt_immB, rs2Of_eq_extract, rs1Of_eq_extract]
    exact congrArg InsnWord.word (encodeB_of_fields hop hf)
  · obtain ⟨hop, hf⟩ := matchesBlt_iff.1 hm
    rw [encode, ofInt_immB, rs2Of_eq_extract, rs1Of_eq_extract]
    exact congrArg InsnWord.word (encodeB_of_fields hop hf)
  · rw [encode, ofInt_immJ, rdOf_eq_extract]
    exact congrArg InsnWord.word (encodeJ_of_fields (matchesJal_iff.1 hm))
  · rw [encode, ofInt_immU, rdOf_eq_extract]
    exact congrArg InsnWord.word (encodeU_of_fields (matchesLui_iff.1 hm))
  · obtain ⟨hop, hf⟩ := matchesCsrrs_iff.1 hm
    rw [encode, csrOf_eq_extract, rs1Of_eq_extract, rdOf_eq_extract]
    exact congrArg InsnWord.word (encodeI_of_fields hop hf)
  · rw [encode, hm]
  · rw [encode, hm]

/-- `c.addi` apart, each compressed row's record encodes to the row's word. -/
theorem encode_of_decodeC {w : Half} {x : Instr} (h : decodeC w = some x) (hx : x ≠ .cAddi) : encode x = .half w := by
  obtain ⟨-, rfl⟩ | ⟨hm, rfl⟩ | ⟨hm, rfl⟩ := decodeC_inv h
  · exact absurd rfl hx
  · obtain ⟨hop, hf, -⟩ := matchesCLi_iff.1 hm
    rw [encode, immCI_eq_append, rdOfC_eq_extract]
    exact congrArg InsnWord.half (encodeCI_of_fields hop hf)
  · obtain ⟨hop, hf, -, -, hbit⟩ := matchesCMv_iff.1 hm
    rw [encode, rdOfC_eq_extract, rsOfC_eq_extract]
    exact congrArg InsnWord.half (encodeCR_of_fields hop hf hbit)

/-- Settles O53: the match condition holds the fixed fields and the record the others, so together they are the word. -/
theorem encodeOfDecodeIsIdentity : Obligations.EncodeOfDecodeIsIdentity :=
  ⟨fun _ _ h => encode_of_decodeS h, fun _ _ h hx => encode_of_decodeC h hx⟩

/-- Settles O55: sixteen closed decodings, one for each family and each refusal. -/
theorem sampleWordsDecode : Obligations.SampleWordsDecode := by
  unfold Obligations.SampleWordsDecode
  decide

/-! ### Disjointness -/

/-- The tag of the decoded form tells which of the three compressed conditions holds. -/
theorem map_tagCode_decodeC (w : Half) (c : BitVec 4) : (decodeC w).map tagCode = some c ↔
    (MatchesCAddi w ∧ 0 = c) ∨ (MatchesCLi w ∧ 1 = c) ∨ (MatchesCMv w ∧ 2 = c) := by
  rw [Option.map_eq_some_iff]
  constructor
  · rintro ⟨x, h, rfl⟩
    obtain ⟨hm, rfl⟩ | ⟨hm, rfl⟩ | ⟨hm, rfl⟩ := decodeC_inv h
    · exact .inl ⟨hm, rfl⟩
    · exact .inr (.inl ⟨hm, rfl⟩)
    · exact .inr (.inr ⟨hm, rfl⟩)
  · rintro (⟨hm, hc⟩ | ⟨hm, hc⟩ | ⟨hm, hc⟩)
    · exact ⟨_, decodeC_ofCAddi hm, hc⟩
    · exact ⟨_, decodeC_ofCLi hm, hc⟩
    · exact ⟨_, decodeC_ofCMv hm, hc⟩

/-- The tag of the decoded form tells which of the ten standard conditions holds. -/
theorem map_tagCode_decodeS (w : Word) (c : BitVec 4) : (decodeS w).map tagCode = some c ↔
    (MatchesAddi w ∧ 3 = c) ∨ (MatchesSw w ∧ 4 = c) ∨ (MatchesLw w ∧ 5 = c) ∨ (MatchesBne w ∧ 6 = c) ∨
    (MatchesBlt w ∧ 7 = c) ∨ (MatchesJal w ∧ 8 = c) ∨ (MatchesLui w ∧ 9 = c) ∨ (MatchesCsrrs w ∧ 10 = c) ∨
    (MatchesWfi w ∧ 11 = c) ∨ (MatchesEcall w ∧ 12 = c) := by
  simp only [Option.map_eq_some_iff, decodeS_eq_some_iff, or_and_right, exists_or, and_assoc, exists_and_left,
    exists_eq_left, tagCode]

/-- Of the conditions that each ask for a code of its own, at most one holds. -/
theorem count_codes_le_one (o : Option (BitVec 4)) {cs : List (BitVec 4)} (hcs : cs.Nodup) :
    (cs.map fun c => decide (o = some c)).count true ≤ 1 := by
  rw [List.count, List.countP_map]
  cases o with
  | none => simp [Function.comp_def]
  | some a =>
    have hcount : cs.count a ≤ 1 := List.nodup_iff_count_le_one.1 hcs a
    simpa [Function.comp_def, List.count, Bool.beq_eq_decide_eq, eq_comm] using hcount

/-- Each compressed condition holds exactly if the tag of the decoded form is its own. -/
theorem matchesC_iff_tag (w : Half) : (MatchesCAddi w ↔ (decodeC w).map tagCode = some 0) ∧
    (MatchesCLi w ↔ (decodeC w).map tagCode = some 1) ∧ (MatchesCMv w ↔ (decodeC w).map tagCode = some 2) := by
  simp only [map_tagCode_decodeC]
  simp

/-- Each standard condition holds exactly if the tag of the decoded form is its own. -/
theorem matchesS_iff_tag (w : Word) : (MatchesAddi w ↔ (decodeS w).map tagCode = some 3) ∧
    (MatchesSw w ↔ (decodeS w).map tagCode = some 4) ∧ (MatchesLw w ↔ (decodeS w).map tagCode = some 5) ∧
    (MatchesBne w ↔ (decodeS w).map tagCode = some 6) ∧ (MatchesBlt w ↔ (decodeS w).map tagCode = some 7) ∧
    (MatchesJal w ↔ (decodeS w).map tagCode = some 8) ∧ (MatchesLui w ↔ (decodeS w).map tagCode = some 9) ∧
    (MatchesCsrrs w ↔ (decodeS w).map tagCode = some 10) ∧ (MatchesWfi w ↔ (decodeS w).map tagCode = some 11) ∧
    (MatchesEcall w ↔ (decodeS w).map tagCode = some 12) := by
  simp only [map_tagCode_decodeS]
  simp

/-- Settles O16: each condition is told by the tag of the decoded form, and a form has one tag. -/
theorem formsAreDisjoint : Obligations.FormsAreDisjoint := by
  refine ⟨fun w => ?_, fun w => ?_⟩
  · obtain ⟨hcAddi, hcLi, hcMv⟩ := matchesC_iff_tag w
    simp only [hcAddi, hcLi, hcMv]
    exact count_codes_le_one _ (cs := [0, 1, 2]) (by decide)
  · obtain ⟨haddi, hsw, hlw, hbne, hblt, hjal, hlui, hcsrrs, hwfi, hecall⟩ := matchesS_iff_tag w
    simp only [haddi, hsw, hlw, hbne, hblt, hjal, hlui, hcsrrs, hwfi, hecall]
    exact count_codes_le_one _ (cs := [3, 4, 5, 6, 7, 8, 9, 10, 11, 12]) (by decide)

end Sys2Proof
end

section
/-! PROOFS. Sign extension at every width (00_scope.md R8), the five bits that the classifier reads (30_encoding.md R61,
R62), and reads of one offset at several widths (20_memory.md R45). -/

namespace Sys2Proof

open Machine

/-! ### Sign extension -/

/-- Settles O2: a value below 2^width is a vector of that width, and its sign extension is the two's-complement
reading. -/
theorem signExtendIsTwosComplement : Obligations.SignExtendIsTwosComplement := by
  intro width value hpos hle hlt
  have htoNat : (BitVec.ofNat width value).toNat = value := Nat.mod_eq_of_lt hlt
  have htoInt : signExtend value width = (BitVec.ofNat width value).toInt := by
    rw [← signExtend_toNat, htoNat]
  have hmod : (BitVec.ofNat width value).toInt % 2 ^ width = value := by
    have hemod := toInt_emod_two_pow (BitVec.ofNat width value)
    rw [htoNat] at hemod
    exact_mod_cast hemod
  refine ⟨fun hbit => if_pos hbit, fun hbit => if_neg (by simp [hbit]), htoInt, ?_, ?_, ?_, ?_⟩
  · rw [htoInt]
    exact BitVec.le_toInt _
  · rw [htoInt]
    exact Int.le_sub_one_of_lt BitVec.toInt_lt
  · rw [htoInt, hmod]
  · rw [htoInt, toInt_immPort_toInt hle]

/-! ### The classifier -/

theorem classify_eq_len2_iff {b0 : Byte} : classify b0 = .len2 ↔ b0.toNat % 4 ≠ 3 := by
  rw [classify_eq]
  split_ifs with h2 h4 <;> simp [h2]

theorem classify_eq_len4_iff {b0 : Byte} : classify b0 = .len4 ↔ b0.toNat % 4 = 3 ∧ b0.toNat / 4 % 8 ≠ 7 := by
  rw [classify_eq]
  split_ifs with h2 h4
  · simp [h2]
  · simp [not_not.1 h2, h4]
  · simp [not_not.1 h4]

/-- The class is that of the low five bits. -/
theorem classify_eq_of_low_bits (b : Byte) : classify b = classify ((b.extractLsb' 0 5).setWidth 8) := by
  have hfive : ((b.extractLsb' 0 5).setWidth 8).toNat = b.toNat % 32 := by
    rw [BitVec.toNat_setWidth_of_le (by decide), BitVec.extractLsb'_toNat, Nat.shiftRight_zero]
  have hlow : b.toNat % 32 % 4 = b.toNat % 4 := by omega
  have hmid : b.toNat % 32 / 4 % 8 = b.toNat / 4 % 8 := by omega
  rw [classify_eq, classify_eq, hfive, hlow, hmid]

/-- Settles O8: the class is that of the low five bits, whose 32 values are listed. -/
theorem classifierReadsFiveBits : Obligations.ClassifierReadsFiveBits := by
  have hbad : ∀ v : BitVec 5, classify (v.setWidth 8) = .bad ↔ v = 0b11111#5 := by decide
  have hlen4 : ∀ v : BitVec 5, classify (v.setWidth 8) = .len4 ↔
      v ∈ [0b00011#5, 0b00111#5, 0b01011#5, 0b01111#5, 0b10011#5, 0b10111#5, 0b11011#5] := by decide
  refine ⟨fun b c h => ?_, fun b => ?_, by decide, fun b => ?_⟩
  · rw [classify_eq_of_low_bits b, classify_eq_of_low_bits c, h]
  · rw [classify_eq_of_low_bits b]
    exact hbad _
  · rw [classify_eq_of_low_bits b]
    exact hlen4 _

namespace Machine

/-! ### Reads of several widths -/

/-- The low bytes of a number in base 256 are its first byte and the low bytes of the rest. -/
theorem byte_add_mod_pow_succ (b : Byte) (u n : Nat) :
    (b.toNat + 256 * u) % 256 ^ (n + 1) = b.toNat + 256 * (u % 256 ^ n) := by
  have hlt : b.toNat < 256 := b.isLt
  have hdiv : (b.toNat + 256 * u) / 256 = u := by omega
  have hmod : (b.toNat + 256 * u) % 256 = b.toNat := by omega
  rw [pow_succ' 256, Nat.mod_mul (a := 256), hdiv, hmod]

/-- A shorter read at the same offset gives the low bytes of the longer one. -/
theorem memRead_mod_eq_shorter {s : State} {off m n v w : Nat} (hv : s.memRead off n = some v)
    (hw : s.memRead off (n + m) = some w) : w % 256 ^ n = v := by
  induction n generalizing off v w with
  | zero =>
    obtain rfl : 0 = v := Option.some.inj hv
    rw [pow_zero, Nat.mod_one]
  | succ n ih =>
    rw [Nat.add_right_comm] at hw
    obtain ⟨b, u, hb, hu, rfl⟩ := memRead_succ hv
    obtain ⟨b', u', hb', hu', rfl⟩ := memRead_succ hw
    obtain rfl : b = b' := Option.some.inj (hb.symm.trans hb')
    rw [byte_add_mod_pow_succ, ih hu hu']

/-- Settles O9: the byte and the 16-bit word are shorter reads at the offset of the longer one, so they are its low
bytes, and the class of the byte fixes the low bits of each word. -/
theorem classFixesLowWordBits : Obligations.ClassFixesLowWordBits := by
  intro s off b0 hb
  have hone : s.memRead off 1 = some b0.toNat := memRead_one hb
  refine ⟨fun h hh => ?_, fun w hw => ?_, fun h w hh hw => ?_⟩
  · have hlow : h % 256 = b0.toNat := memRead_mod_eq_shorter (m := 1) hone hh
    refine ⟨hlow, memRead_lt hh, fun hc => ?_⟩
    have hne : b0.toNat % 4 ≠ 3 := classify_eq_len2_iff.1 hc
    omega
  · have hlow : w % 256 = b0.toNat := memRead_mod_eq_shorter (m := 3) hone hw
    refine ⟨hlow, memRead_lt hw, fun hc => ?_⟩
    obtain ⟨heq, hne⟩ := classify_eq_len4_iff.1 hc
    omega
  · exact memRead_mod_eq_shorter (m := 2) hh hw

end Machine

end Sys2Proof
end

section
/-! PROOFS. The flat ports of the decode core (10_state.md R36–R39): the window holds the bytes that the decode core
reads, and the driven ports hold the record. -/

namespace Sys2Proof.Machine

open Claims

/-! ### The operands on the ports -/

section
variable (x : Instr) (p : Ports)

@[simp] theorem driveOperands_kind : (driveOperands x p).kind = p.kind := by cases x <;> rfl
@[simp] theorem driveOperands_len : (driveOperands x p).len = p.len := by cases x <;> rfl
@[simp] theorem driveOperands_adv : (driveOperands x p).adv = p.adv := by cases x <;> rfl
@[simp] theorem driveOperands_word : (driveOperands x p).word = p.word := by cases x <;> rfl

end

/-- The 32-bit port carries every immediate of a record exactly (D2): a jump offset is the widest of them. -/
theorem toInt_immPort {i : Int} (hlo : -1048576 ≤ i) (hhi : i ≤ 1048575) : (immPort i).toInt = i :=
  BitVec.toInt_ofInt_eq_self (w := 32) (by decide) (by omega) (by omega)

theorem toInt_immPort_of_ok12 {i : Int} (h : ImmOk12 i) : (immPort i).toInt = i :=
  toInt_immPort (by omega) (by omega)

theorem toInt_immPort_of_okBranch {i : Int} (h : ImmOkBranch i) : (immPort i).toInt = i :=
  toInt_immPort (by omega) (by omega)

theorem toInt_immPort_of_okJump {i : Int} (h : ImmOkJump i) : (immPort i).toInt = i :=
  toInt_immPort (by omega) (by omega)

theorem toInt_immPort_of_okUpper {i : Int} (h : ImmOkUpper i) : (immPort i).toInt = i :=
  toInt_immPort (by omega) (by omega)

theorem setWidth_immPort_cLi (imm : BitVec 6) : (imm.setWidth Config.immW).setWidth 6 = imm := by
  rw [BitVec.setWidth_setWidth_of_le imm (by decide), BitVec.setWidth_eq]

/-- The operand ports that a tag drives carry the operands of a well-formed form. -/
theorem insnOfPorts_driveOperands {x : Instr} (hwf : x.wellFormed = true) {p : Ports} (htag : p.tag = tagCode x) :
    insnOfPorts (driveOperands x p) = some x := by
  cases x with
  | cAddi => simp [insnOfPorts, driveOperands, htag, tagCode]
  | cLi rd imm =>
    have himm : (imm.setWidth Config.immW).setWidth 6 = imm := setWidth_immPort_cLi imm
    simp [insnOfPorts, driveOperands, htag, tagCode, himm]
  | cMv rd rs => simp [insnOfPorts, driveOperands, htag, tagCode]
  | addi rd rs1 imm =>
    simp [insnOfPorts, driveOperands, htag, tagCode, toInt_immPort_of_ok12 (of_decide_eq_true hwf)]
  | sw rs2 rs1 imm =>
    simp [insnOfPorts, driveOperands, htag, tagCode, toInt_immPort_of_ok12 (of_decide_eq_true hwf)]
  | lw rd rs1 imm =>
    simp [insnOfPorts, driveOperands, htag, tagCode, toInt_immPort_of_ok12 (of_decide_eq_true hwf)]
  | bne rs1 rs2 imm =>
    simp [insnOfPorts, driveOperands, htag, tagCode, toInt_immPort_of_okBranch (of_decide_eq_true hwf)]
  | blt rs1 rs2 imm =>
    simp [insnOfPorts, driveOperands, htag, tagCode, toInt_immPort_of_okBranch (of_decide_eq_true hwf)]
  | jal rd imm =>
    simp [insnOfPorts, driveOperands, htag, tagCode, toInt_immPort_of_okJump (of_decide_eq_true hwf)]
  | lui rd imm =>
    simp [insnOfPorts, driveOperands, htag, tagCode, toInt_immPort_of_okUpper (of_decide_eq_true hwf)]
  | csrrs rd csr rs1 => simp [insnOfPorts, driveOperands, htag, tagCode]
  | wfi => simp [insnOfPorts, driveOperands, htag, tagCode]
  | ecall => simp [insnOfPorts, driveOperands, htag, tagCode]

@[simp] theorem lenOfPort_lenPort (n : InsnLen) : lenOfPort (lenPort n) = some n := by
  cases n <;> rfl

@[simp] theorem toNat_lenPort (n : InsnLen) : (lenPort n).toNat = n.bytes := by
  cases n <;> rfl

/-! ### The window -/

theorem toNat_availPort (s : State) : s.availPort.toNat = min s.avail 4 :=
  Nat.mod_eq_of_lt (by omega)

/-- Over a loaded buffer the window holds the bytes that remain. -/
theorem byteAt_eq_windowByte {s : State} (hl : s.Loaded) (dontCare : Word) {k : Nat} (h : s.cursor + k < s.len) :
    s.byteAt (s.cursor + k) = some (s.windowByte dontCare k) := by
  obtain ⟨b, hb⟩ := byteAt_of_loaded hl h
  rw [State.windowByte, hb, Option.getD_some]

/-- The bytes of the window, lowest first. -/
def State.windowBytes (s : State) (dontCare : Word) : List Byte :=
  [s.windowByte dontCare 0, s.windowByte dontCare 1, s.windowByte dontCare 2, s.windowByte dontCare 3]

theorem toNat_window (s : State) (dontCare : Word) : (s.window dontCare).toNat = leNat (s.windowBytes dontCare) := by
  simp only [State.window, State.windowBytes, leNat, toNat_append_eq_add]
  omega

theorem window_setWidth (s : State) (dontCare : Word) : (s.window dontCare).setWidth 8 = s.windowByte dontCare 0 := by
  apply BitVec.eq_of_toNat_eq
  have hlt := (s.windowByte dontCare 0).isLt
  rw [BitVec.toNat_setWidth, toNat_window, State.windowBytes, leNat]
  omega

/-- Cutting a little-endian number to some bytes is assembling the first of them. -/
theorem leNat_take (n : Nat) (bs : List Byte) : leNat (bs.take n) = leNat bs % 256 ^ n := by
  induction n generalizing bs with
  | zero => rw [List.take_zero, pow_zero, Nat.mod_one]; rfl
  | succ n ih =>
    cases bs with
    | nil => rw [List.take_nil, leNat, Nat.zero_mod]
    | cons b bs =>
      rw [List.take_succ_cons, leNat, leNat, ih, byte_add_mod_pow_succ]

theorem getElem_windowBytes (s : State) (dontCare : Word) (k : Nat) (hk : k < (s.windowBytes dontCare).length) :
    (s.windowBytes dontCare)[k] = s.windowByte dontCare k :=
  match k, hk with
  | 0, _ => rfl
  | 1, _ => rfl
  | 2, _ => rfl
  | 3, _ => rfl

/-- Over a loaded buffer the low bytes of the window are what the decode core reads. -/
theorem memRead_eq_window {s : State} (hl : s.Loaded) (dontCare : Word) {n : InsnLen} (h : n.bytes ≤ s.avail) :
    s.memRead s.cursor n.bytes = some ((s.window dontCare).toNat % 2 ^ (8 * n.bytes)) := by
  have hlen : ((s.windowBytes dontCare).take n.bytes).length = n.bytes := by cases n <;> rfl
  have hbytes : ∀ (k : Nat) (hk : k < ((s.windowBytes dontCare).take n.bytes).length),
      s.byteAt (s.cursor + k) = some ((s.windowBytes dontCare).take n.bytes)[k] := fun k hk => by
    rw [List.getElem_take, getElem_windowBytes]
    refine byteAt_eq_windowByte hl dontCare ?_
    rw [hlen] at hk
    unfold State.avail at h
    omega
  rw [toNat_window, pow_mul, show 2 ^ 8 = 256 from rfl, ← leNat_take, ← memRead_eq_leNat hbytes, hlen]

/-! ### The record on the ports -/

section
variable {p : Ports} {n : InsnLen} (off : Nat)

theorem recordOfPorts_insn {x : Instr} (hkind : p.kind = 0) (hlen : p.len = lenPort n) (hx : insnOfPorts p = some x) :
    recordOfPorts off p = some (.insn off n p.word x, p.adv.toNat) := by
  simp [recordOfPorts, hkind, hlen, hx]

theorem recordOfPorts_unknown (hkind : p.kind = 1) (hlen : p.len = lenPort n) :
    recordOfPorts off p = some (.unknown off n p.word, p.adv.toNat) := by
  simp [recordOfPorts, hkind, hlen]

theorem recordOfPorts_badLength (hkind : p.kind = 2) :
    recordOfPorts off p = some (.badLength off p.b0, p.adv.toNat) := by
  simp [recordOfPorts, hkind]

theorem recordOfPorts_truncated (hkind : p.kind = 3) (hlen : p.len = lenPort n) :
    recordOfPorts off p = some (.truncated off n p.remaining.toNat, p.adv.toNat) := by
  simp [recordOfPorts, hkind, hlen]

end

/-- The ports carry the decode core's answer `p` for a step at offset `off`. -/
def Ports.Carry (q : Ports) (off : Nat) (p : Record × Nat) : Prop :=
  recordOfPorts off q = some p ∧ q.kind = kindCode p.1

/-- For a classified length the ports carry the core's answer: the bounds check sees the same number of bytes up to 4,
and the router the same word. -/
theorem sizedPorts_carry {s : State} (hl : s.Loaded) (any : Ports) (dontCare : Word) (n : InsnLen) :
    ∃ p, decodeSized s n s.cursor s.avail = .ok p ∧
      (sizedPorts n (s.window dontCare) s.availPort any).Carry s.cursor p := by
  have hfour : n.bytes ≤ 4 := by cases n <;> decide
  by_cases ha : s.avail < n.bytes
  · have hport : s.availPort.toNat < n.bytes := by rw [toNat_availPort]; omega
    have hremaining : s.availPort.toNat = s.avail := by rw [toNat_availPort]; omega
    refine ⟨_, decodeSized_of_truncated ha, ?_⟩
    rw [sizedPorts, if_pos hport, ← hremaining]
    exact ⟨recordOfPorts_truncated s.cursor rfl rfl, rfl⟩
  · have hport : ¬s.availPort.toNat < n.bytes := by rw [toNat_availPort]; omega
    have hread := memRead_eq_window hl dontCare (Nat.le_of_not_lt ha)
    obtain ⟨w, hw, htoNat, -⟩ := exists_word_of_memRead hread
    rw [← htoNat] at hread
    rw [sizedPorts, if_neg hport, ← hw]
    cases hx : routeWord n w with
    | none =>
      refine ⟨_, decodeSized_of_unknown (Nat.le_of_not_lt ha) hread hx, ?_, rfl⟩
      rw [recordOfPorts_unknown s.cursor rfl rfl, toNat_lenPort]
    | some x =>
      obtain ⟨-, hwf⟩ := decodedFormsAreWellFormed n w x hx
      refine ⟨_, decodeSized_of_insn (Nat.le_of_not_lt ha) hread hx, ?_, driveOperands_kind x _⟩
      rw [recordOfPorts_insn s.cursor (driveOperands_kind x _) (driveOperands_len x _)
        (insnOfPorts_driveOperands hwf rfl), driveOperands_word, driveOperands_adv, toNat_lenPort]

/-- Settles O56: the ports see the core's first byte, so they test its class, then the bounds, then its word. -/
theorem portsCarryTheRecord : Obligations.PortsCarryTheRecord := by
  intro s any dontCare he hl
  have hb : s.byteAt s.cursor = some ((s.window dontCare).setWidth 8) := by
    rw [window_setWidth]
    exact byteAt_eq_windowByte hl dontCare (k := 0) he.2
  have hpos : 0 < s.avail := Nat.sub_pos_of_lt he.2
  have havail : 1 ≤ s.availPort.toNat ∧ s.availPort.toNat ≤ 4 := by rw [toNat_availPort]; omega
  have hcarry : ∃ p, decodeCore s s.cursor s.avail = .ok p ∧
      (corePorts (s.window dontCare) s.availPort any).Carry s.cursor p := by
    rw [decodeCore_of_byte _ hb, corePorts, if_pos havail]
    cases classify ((s.window dontCare).setWidth 8) with
    | bad => exact ⟨_, rfl, recordOfPorts_badLength s.cursor rfl, rfl⟩
    | len2 => exact sizedPorts_carry hl any dontCare .two
    | len4 => exact sizedPorts_carry hl any dontCare .four
  obtain ⟨⟨r, adv⟩, hd, hrecord, hkind⟩ := hcarry
  exact ⟨r, adv, hd, hrecord, hkind⟩

end Sys2Proof.Machine
end

section
/-! PROOFS. The reference renderer (48_renderer.md R181–R197): numbers as digits, the dump, the text of each form and
of a scan. -/

namespace Sys2Proof.Machine

open Claims

/-! ### The digit table -/

theorem hexDigit_eq_nibbleChar {v : Nat} (h : v < 16) : hexDigit false v = nibbleChar v := by
  have htable : ∀ u : Fin 16, hexDigit false u = nibbleChar u := by decide
  exact htable ⟨v, h⟩

theorem digitChar_eq_nibbleChar {v : Nat} (h : v < 16) : Nat.digitChar v = nibbleChar v := by
  have htable : ∀ u : Fin 16, Nat.digitChar u = nibbleChar u := by decide
  exact htable ⟨v, h⟩

theorem toLower_hexDigit (capitals : Bool) {v : Nat} (h : v < 16) :
    (hexDigit capitals v).toLower = nibbleChar v := by
  have htable : ∀ (b : Bool) (u : Fin 16), (hexDigit b u).toLower = nibbleChar u := by decide
  exact htable capitals ⟨v, h⟩

theorem nibbleChar_mem_take {base d : Nat} (hd : d < base) (hbase : base ≤ 16) :
    nibbleChar d ∈ "0123456789abcdef".toList.take base := by
  have hlen : d < "0123456789abcdef".toList.length := hd.trans_le hbase
  rw [nibbleChar, List.getD_eq_getElem _ _ hlen]
  exact List.mem_take_iff_getElem.2 ⟨d, lt_min hd hlen, rfl⟩

theorem idxOf_nibbleChar {d : Nat} (h : d < 16) : "0123456789abcdef".toList.idxOf (nibbleChar d) = d := by
  have htable : ∀ u : Fin 16, "0123456789abcdef".toList.idxOf (nibbleChar u) = u := by decide
  exact htable ⟨d, h⟩

/-! ### Numbers as digits -/

theorem textValue_append_singleton (base : Nat) (ds : List Char) (c : Char) :
    textValue base (ds ++ [c]) = base * textValue base ds + "0123456789abcdef".toList.idxOf c := by
  rw [textValue, List.foldl_append]
  rfl

/-- A number below the base is its one digit. -/
theorem digitsOf_digit {base d : Nat} (hd : d < base) (hbase : base ≤ 16) : DigitsOf base d [nibbleChar d] := by
  refine ⟨?_, ?_, by simp, by simp⟩
  · rw [List.forall_mem_singleton]
    exact nibbleChar_mem_take hd hbase
  · rw [← List.nil_append [nibbleChar d], textValue_append_singleton, idxOf_nibbleChar (hd.trans_le hbase)]
    simp [textValue]

/-- One digit more behind the digits of a positive number. -/
theorem digitsOf_append_digit {base m d : Nat} {ds : List Char} (hd : d < base) (hbase : base ≤ 16) (hm : 0 < m)
    (h : DigitsOf base m ds) : DigitsOf base (base * m + d) (ds ++ [nibbleChar d]) := by
  obtain ⟨hdigits, hvalue, hne, hzero⟩ := h
  refine ⟨?_, ?_, by simp, fun hhead => ?_⟩
  · rw [List.forall_mem_append, List.forall_mem_singleton]
    exact ⟨hdigits, nibbleChar_mem_take hd hbase⟩
  · rw [textValue_append_singleton, hvalue, idxOf_nibbleChar (hd.trans_le hbase)]
  · rw [List.head?_append_of_ne_nil _ hne] at hhead
    have hvalue0 : textValue base ['0'] = 0 := by simp [textValue]
    rw [hzero hhead, hvalue0] at hvalue
    exact absurd hvalue hm.ne

/-- The decimal digits of the library are the claims' digits in base 10. -/
theorem digitsOf_toDigits (n : Nat) : DigitsOf 10 n (Nat.toDigits 10 n) := by
  induction n using Nat.strongRecOn with
  | ind n ih =>
    by_cases hlt : n < 10
    · rw [Nat.toDigits_of_lt_base hlt, digitChar_eq_nibbleChar (by omega)]
      exact digitsOf_digit hlt (by decide)
    · have hrest : DigitsOf 10 (10 * (n / 10) + n % 10) (Nat.toDigits 10 (n / 10) ++ [nibbleChar (n % 10)]) :=
        digitsOf_append_digit (by omega) (by decide) (by omega) (ih (n / 10) (by omega))
      rw [Nat.toDigits_of_base_le (by decide) (Nat.le_of_not_lt hlt), digitChar_eq_nibbleChar (by omega)]
      rwa [Nat.div_add_mod] at hrest

theorem log2_eq_log2_half_add_one {n : Nat} (h : 2 ≤ n) : Nat.log2 n = Nat.log2 (n / 2) + 1 := by
  rw [Nat.log2_def, if_pos h]

theorem hexWidth_of_lt {v : Nat} (h : v < 16) : hexWidth v = 1 := by
  have htable : ∀ u : Fin 16, hexWidth u = 1 := by decide
  exact htable ⟨v, h⟩

/-- A number with more than one hexadecimal digit has one more than its sixteenth. -/
theorem hexWidth_of_le {v : Nat} (h : 16 ≤ v) : hexWidth v = hexWidth (v / 16) + 1 := by
  have hlog : Nat.log2 v = Nat.log2 (v / 16) + 4 := by
    rw [log2_eq_log2_half_add_one (by omega : 2 ≤ v), log2_eq_log2_half_add_one (by omega : 2 ≤ v / 2),
      log2_eq_log2_half_add_one (by omega : 2 ≤ v / 2 / 2), log2_eq_log2_half_add_one (by omega : 2 ≤ v / 2 / 2 / 2),
      Nat.div_div_eq_div_mul, Nat.div_div_eq_div_mul, Nat.div_div_eq_div_mul]
  rw [hexWidth, hexWidth, hlog, Nat.add_div_right _ (by decide)]

/-- The hexadecimal digits at the unpadded width are the claims' digits in base 16. -/
theorem digitsOf_hexDigits (n : Nat) : DigitsOf 16 n (hexDigits false (hexWidth n) n) := by
  induction n using Nat.strongRecOn with
  | ind n ih =>
    by_cases hlt : n < 16
    · rw [hexWidth_of_lt hlt, hexDigits, hexDigits, Nat.mod_eq_of_lt hlt, hexDigit_eq_nibbleChar hlt]
      exact digitsOf_digit hlt (by decide)
    · have hrest : DigitsOf 16 (16 * (n / 16) + n % 16)
          (hexDigits false (hexWidth (n / 16)) (n / 16) ++ [nibbleChar (n % 16)]) :=
        digitsOf_append_digit (by omega) (by decide) (by omega) (ih (n / 16) (by omega))
      rw [hexWidth_of_le (Nat.le_of_not_lt hlt), hexDigits, hexDigit_eq_nibbleChar (by omega)]
      rwa [Nat.div_add_mod] at hrest

theorem toList_dec (v : Int) : (dec v).toList = (if v < 0 then ['-'] else []) ++ Nat.toDigits 10 v.natAbs := by
  unfold dec
  split_ifs
  · rw [String.toList_append, Nat.toList_repr]
    rfl
  · rw [Nat.toList_repr, List.nil_append]

theorem toList_hexText (k v : Nat) : (hexText k v).toList = hexDigits false k v := String.toList_ofList

/-- Settles O57: both texts are built digit by digit, the last digit behind the digits of the quotient. -/
theorem immediateTextIsItsNumber : Obligations.ImmediateTextIsItsNumber := by
  intro v
  refine ⟨⟨_, toList_dec v, digitsOf_toDigits _⟩, _, ?_, digitsOf_hexDigits _⟩
  rw [hexu, String.toList_append, toList_hexText]
  rfl

/-! ### The dump -/

/-- Digit `j` of a padded text is nibble `j` of the number, from the highest down. -/
theorem hexDigits_eq_map (k v : Nat) :
    hexDigits false k v = (List.range k).reverse.map fun j => nibbleChar (v / 16 ^ j % 16) := by
  induction k generalizing v with
  | zero => rfl
  | succ k ih =>
    have hshift : ∀ j, v / 16 / 16 ^ j % 16 = v / 16 ^ (j + 1) % 16 := fun j => by
      rw [Nat.div_div_eq_div_mul, pow_succ']
    rw [hexDigits, ih, hexDigit_eq_nibbleChar (Nat.mod_lt _ (by decide)), List.range_succ_eq_map]
    simp only [hshift, List.reverse_cons, List.map_append, List.map_reverse, List.map_map, Function.comp_def,
      List.map_cons, List.map_nil, pow_zero, Nat.div_one, Nat.succ_eq_add_one]

theorem toNat_nibble (w : Word) (j : Nat) : (w.extractLsb' (4 * j) 4).toNat = w.toNat / 16 ^ j % 16 := by
  rw [BitVec.extractLsb'_toNat, Nat.shiftRight_eq_div_pow, pow_mul]
  rfl

/-- Settles O58: the dump is a padded text, whose digits are the word's nibbles. -/
theorem dumpIsEightColumns : Obligations.DumpIsEightColumns := by
  refine ⟨fun w => ?_, fun w => ?_⟩
  · rw [dumpText, toList_hexText, hexDigits_eq_map]
    simp only [toNat_nibble]
    rfl
  · rw [dumpText, String.toList_append, toList_hexText, hexDigits_eq_map]
    simp only [toNat_nibble]
    rfl

/-! ### The text of a record and of a scan -/

/-- Settles O59: each text is the renderer's own row, and the register table is a list of 32 literals. -/
theorem renderedTextOfEachForm : Obligations.RenderedTextOfEachForm :=
  ⟨fun _ _ _ _ _ _ => ⟨rfl, rfl, rfl, rfl, rfl, rfl, rfl, rfl, rfl, rfl, rfl, rfl, rfl⟩, by decide, by decide,
    by decide, by decide, by decide, by decide, by decide, by decide, by decide⟩

theorem renderScan_append_singleton (rs : List Record) (r : Record) : renderScan (rs ++ [r]) =
    ((renderScan rs).1 ++ (render r).1, (renderScan rs).2 ++ (render r).2) := by
  simp [renderScan, String.join_append, String.join_cons]

/-- Whatever their case, the two digits of a byte are its nibbles. -/
theorem map_toLower_hexDigits_two (capitals : Bool) (b0 : Byte) :
    (hexDigits capitals 2 b0.toNat).map Char.toLower = [nibbleChar (b0.toNat / 16), nibbleChar (b0.toNat % 16)] := by
  have hhigh : b0.toNat / 16 < 16 := by have := b0.isLt; omega
  have hdigits : hexDigits capitals 2 b0.toNat =
      [hexDigit capitals (b0.toNat / 16 % 16), hexDigit capitals (b0.toNat % 16)] := rfl
  rw [hdigits, Nat.mod_eq_of_lt hhigh, List.map_cons, List.map_singleton, toLower_hexDigit capitals hhigh,
    toLower_hexDigit capitals (Nat.mod_lt _ (by decide))]

/-- Settles O60: a record more is one text more at the end of each stream, and each kind of record writes to one of
them. -/
theorem scanTextIsPerRecordInOrder : Obligations.ScanTextIsPerRecordInOrder := by
  refine ⟨rfl, renderScan_append_singleton, fun off n w x => ⟨rfl, rfl⟩, fun off n w => rfl, fun off need k => rfl,
    fun off b0 => ⟨rfl, _, _, _, rfl, ?_⟩⟩
  rw [String.toList_ofList]
  exact map_toLower_hexDigits_two _ b0

end Sys2Proof.Machine
end
